-- ==== Sys2Proof/Word.lean ====
section
/-! DEFINITION. The bit vectors of the block: the widths that spec/00_scope.md rule R5 fixes (32 and 8), 6 for
BitCounter, and an event word's, which depends on the build's duration width. -/

namespace Sys2Proof

/-- RawFrame, FRAME_BITS = 32 (R5, R12). -/
abbrev Frame := BitVec 32

/-- DecodedCommand, CMD_W = 8 (R5, R14). -/
abbrev Command := BitVec 8

/-- BitCounter, BC_W = 6 (R5, R13). -/
abbrev BitCount := BitVec 6

/-- The `kind` field of an event word (R40). -/
abbrev KindCode := BitVec 3

/-- An event word of a build whose duration width DUR_W is `n`: `kind` above `payload`, n + 3 bits (R40). -/
abbrev EventWordAt (n : Nat) := BitVec (3 + n)

/-- The event word with the default DUR_W: 19 bits (R40, opcode_table.json). -/
abbrev EventWord := BitVec 19

end Sys2Proof
end

