-- ==== Sys2Proof/Config.lean ====
section
/-! DEFINITION. What is fixed when the block is built (spec/00_scope.md rule R5, spec/10_state.md rule R19), and the
free values: constants with no body, for what the spec leaves open. -/

namespace Sys2Proof

/-- The four values of the register State (R11), named as the spec names them. -/
inductive DecoderState where
  /-- AHM, 0b00. -/
  | awaitingHeaderMark
  /-- AHS, 0b01. -/
  | awaitingHeaderSpace
  /-- ABM, 0b10. -/
  | awaitingBitMark
  /-- ABS, 0b11. -/
  | awaitingBitSpace
  deriving DecidableEq, Repr, Inhabited

/-- DUR_OVERFLOW (R5, R109): what the duration counter does past 2^DUR_W - 1. -/
inductive DurOverflow where
  | wrap
  | saturate
  deriving DecidableEq, Repr, Inhabited

/-- The five windows of the comparator (R51). -/
inductive Window where
  | headerMark
  | headerSpace
  | bitMark
  | bitSpaceZero
  | bitSpaceOne
  deriving DecidableEq, Repr

/-- The build parameters of R5. They are no registers, and no event writes them (R19). The model takes them as an
argument, so a claim over a `Build` holds for every build: DESIGN CHOICE, notes/assumptions/5.md. -/
structure Build where
  /-- DUR_W, the width of a duration and of DurCount, in bits (D4, D18). -/
  durW : Nat
  /-- NOM_HM, in ticks. -/
  nomHM : Nat
  /-- NOM_HS, in ticks. -/
  nomHS : Nat
  /-- NOM_BM, in ticks. -/
  nomBM : Nat
  /-- NOM_B0, in ticks. -/
  nomB0 : Nat
  /-- NOM_B1, in ticks. -/
  nomB1 : Nat
  /-- TICK_US, OPEN; no rule reads it (R5, I6). Held as a whole number: DESIGN CHOICE, notes/assumptions/15.md. -/
  tickUs : Nat
  /-- DUR_OVERFLOW, OPEN (R109, I5). -/
  durOverflow : DurOverflow
  deriving DecidableEq, Repr

/-- The nominal value of each window (R51). -/
def Build.nominal (b : Build) : Window → Nat
  | .headerMark => b.nomHM
  | .headerSpace => b.nomHS
  | .bitMark => b.nomBM
  | .bitSpaceZero => b.nomB0
  | .bitSpaceOne => b.nomB1

/-- A build with the default width and constants of R5 and the overflow policy `p`. -/
def Build.default (p : DurOverflow) : Build :=
  { durW := 16, nomHM := 9000, nomHS := 4500, nomBM := 560, nomB0 := 560, nomB1 := 1690, tickUs := 1, durOverflow := p }

/-- The window constants of `b` are the defaults of R5. -/
abbrev Build.HasDefaultWindows (b : Build) : Prop :=
  b.nomHM = 9000 ∧ b.nomHS = 4500 ∧ b.nomBM = 560 ∧ b.nomB0 = 560 ∧ b.nomB1 = 1690

/-- DUR_OVERFLOW of the build that reset describes: OPEN, so it has no body (notes/assumptions/4.md). -/
opaque Config.durOverflow : DurOverflow

/-! Power-on draws (R120, I1): what each register holds at the n-th draw. Free values (notes/assumptions/2.md). -/

opaque Config.powerOnDecoderState : Nat → DecoderState
opaque Config.powerOnRawFrame : Nat → Frame
opaque Config.powerOnBitCounter : Nat → BitCount
opaque Config.powerOnDecodedCommand : Nat → Command
opaque Config.powerOnReadyFlag : Nat → Bool
/-- A number of ticks; DurCount holds its low DUR_W bits. -/
opaque Config.powerOnDurCount : Nat → Nat

/-! What a READ gives while Armed = 0 (R82, I2): a free pair for every draw (notes/assumptions/3.md). -/

opaque Config.unarmedFrameReady : Nat → Bool
opaque Config.unarmedDecodedCommand : Nat → Command

end Sys2Proof
end

