-- ==== Sys2Proof/Syntax.lean ====
section
/-! DEFINITION. The instructions, one constructor per row of spec/opcode_table.json (spec/30_encoding.md rule R41),
and the pseudo-events of rule R47, which stand for lists of them. -/

namespace Sys2Proof

/-- The events of the block. A duration is a count of ticks, in 0 .. 2^DUR_W - 1 (R42, R46): WellFormed.lean checks
the bound. -/
inductive Instr where
  /-- `FALL d`: falling edge, d the length of the high interval it ends (R62). -/
  | fall (d : Nat)
  /-- `RISE d`: rising edge, d the length of the low interval it ends (R61). -/
  | rise (d : Nat)
  /-- `INIT` (R80). -/
  | init
  /-- `CLEAR` (R81). -/
  | clear
  /-- `READ` (R82). -/
  | read
  deriving DecidableEq, Repr

/-- An edge event. -/
def Instr.isEdge : Instr → Bool
  | .fall _ => true
  | .rise _ => true
  | .init => false
  | .clear => false
  | .read => false

/-- The duration of an edge (R42), and 0 for the others, which have no operand (R43). -/
def Instr.duration : Instr → Nat
  | .fall d => d
  | .rise d => d
  | .init => 0
  | .clear => 0
  | .read => 0

/-- An event as R46 writes it, the duration in decimal. -/
def Instr.text : Instr → String
  | .fall d => "FALL " ++ toString d
  | .rise d => "RISE " ++ toString d
  | .init => "INIT"
  | .clear => "CLEAR"
  | .read => "READ"

/-- The pseudo-events of R47. -/
inductive PseudoEvent where
  | hdr
  | bit (b : Bool)
  | frame (v : Frame)
  deriving DecidableEq, Repr

/-- The two events of `BIT b` (R47). -/
def bitEvents (b : Build) (v : Bool) : List Instr :=
  [.rise b.nomBM, .fall (if v then b.nomB1 else b.nomB0)]

/-- The expansion of a pseudo-event (R47); a `FRAME v` sends bit 0 first. -/
def PseudoEvent.expand (b : Build) : PseudoEvent → List Instr
  | .hdr => [.rise b.nomHM, .fall b.nomHS]
  | .bit v => bitEvents b v
  | .frame v => [.rise b.nomHM, .fall b.nomHS] ++ (List.range 32).flatMap fun k => bitEvents b (v.getLsbD k)

end Sys2Proof
end

