-- ==== Sys2Proof/WellFormed.lean ====
section
/-! DEFINITION. What makes an instruction and a build well formed: a duration fits its payload (spec/30_encoding.md
rules R42, R46), and every nominal value fits a duration (spec/00_scope.md rule R5). -/

namespace Sys2Proof

/-- The duration of an edge is in 0 .. 2^n - 1, for a build of duration width n (R42). -/
def Instr.wellFormedAt (n : Nat) : Instr → Bool
  | .fall d => decide (d < 2 ^ n)
  | .rise d => decide (d < 2 ^ n)
  | .init => true
  | .clear => true
  | .read => true

/-- Every NOM value is at most 2^DUR_W - 1 (R5, the constraints below the table). -/
def Build.wellFormed (b : Build) : Bool :=
  decide (b.nomHM < 2 ^ b.durW) && decide (b.nomHS < 2 ^ b.durW) && decide (b.nomBM < 2 ^ b.durW)
    && decide (b.nomB0 < 2 ^ b.durW) && decide (b.nomB1 < 2 ^ b.durW)

end Sys2Proof
end

