-- ==== Sys2Proof/Decode.lean ====
section
/-! DEFINITION. The event word (spec/30_encoding.md rules R40 to R45): its decoder, total on every word, which answers
a reserved kind by name, and after it the encoder, both for any duration width n; a build fixes n, at 16 by default. -/

namespace Sys2Proof

/-- What decoding answers (R45): an event, or the reserved kind. -/
inductive Decoded where
  | event (i : Instr)
  | reserved (kind : KindCode)
  deriving DecidableEq, Repr

/-- The `kind` field, bits [n+2 : n] (R40). -/
def kindOf (n : Nat) (w : EventWordAt n) : KindCode := w.extractLsb' n 3

/-- The duration operand, zext of the payload, bits [n-1 : 0] (R40, R42). -/
def payloadOf (n : Nat) (w : EventWordAt n) : Nat := (w.extractLsb' 0 n).toNat

/-- The decoder of R45. -/
def decodeAt (n : Nat) (w : EventWordAt n) : Decoded :=
  if kindOf n w = 0b000#3 then .event (.fall (payloadOf n w))
  else if kindOf n w = 0b001#3 then .event (.rise (payloadOf n w))
  else if kindOf n w = 0b010#3 then .event .init
  else if kindOf n w = 0b011#3 then .event .clear
  else if kindOf n w = 0b100#3 then .event .read
  else .reserved (kindOf n w)

/-- The decoder with the default DUR_W. -/
def decode (w : EventWord) : Decoded := decodeAt 16 w

/-- The decoder on the number that the lines of the input port show, bit 0 the least significant. The port of a build of
width n has n + 3 lines (R40, R48), so a higher bit of the number does not exist: notes/assumptions/18.md. -/
def decodePort (n w : Nat) : Decoded := decodeAt n (BitVec.ofNat (3 + n) w)

/-- The `kind` of an event (the table of R41). -/
def kindCode : Instr → KindCode
  | .fall _ => 0b000#3
  | .rise _ => 0b001#3
  | .init => 0b010#3
  | .clear => 0b011#3
  | .read => 0b100#3

/-- The encoder: kind above payload (R40, R46). The payload of an edge is its duration (R42); for the others a producer
writes 0 (R43). -/
def encodeAt (n : Nat) (i : Instr) : EventWordAt n := kindCode i ++ BitVec.ofNat n i.duration

/-- The encoder with the default DUR_W. -/
def encode (i : Instr) : EventWord := encodeAt 16 i

/-- The encoded word as the number that the port's lines show. -/
def encodePort (n : Nat) (i : Instr) : Nat := (encodeAt n i).toNat

/-- The instruction the decoder reads from a table row's bits `w`, bit 0 the least significant. A row of the table has 19
bits (R40), so a number of 20 bits or more is no event word. -/
def decodeTableWord (_nbits w : Nat) : Option Instr :=
  if w < 2 ^ 19 then
    match decodePort 16 w with
    | .event i => some i
    | .reserved _ => none
  else none

end Sys2Proof
end

