-- ==== Sys2Proof/Machine/State.lean ====
section
/-! DEFINITION. The state: the seven registers of spec/10_state.md rule R10, the build parameters of
spec/00_scope.md rule R5 that the model takes as an argument, and the model's own fields (the inputs to come, the outputs
given, the number of free draws). -/

namespace Sys2Proof.Machine

/-- The block raises no exception and has no fatal error (R100), so no step ends in a fault: there is no
constructor, and nobody raises one. Safe. -/
inductive Fault : Type
  deriving DecidableEq, Repr

/-- Why the model gives an event no meaning (`refuse` of R7). -/
inductive Refusal where
  /-- An instruction that `exec` rejects by name; no arm does so now. Safe. -/
  | notModelled (mnemonic : String)
  /-- Raised by the step on an event word whose kind is 0b101, 0b110 or 0b111 (R44, R83, I3). Safe: the run ends, so
  no claim about a sequence that holds such a word can be proved. -/
  | reservedKind (kind : KindCode)
  /-- Raised by an edge step while Armed = 1 in a state that breaks invariant 1 or 2 of R20 (D28, I4), which no run
  from INIT reaches. Safe: it errs toward unprovable. -/
  | illFormedState
  deriving DecidableEq, Repr

/-- What the world can present to the block, one input for each step. -/
inductive Input where
  /-- An event word on the input port (R40), from any agent: the number that the port's lines show. -/
  | event (w : Nat)
  /-- Two event words that take effect in one clock of a concurrent implementation (R106 items 6 and 7).
  notes/assumptions/13.md. -/
  | sameClock (w v : Nat)
  /-- The reset input, where one exists (R121). -/
  | reset
  /-- One tick of the timer (R109). -/
  | tick
  /-- A transition of the input line, with the level after it (R110). -/
  | lineTransition (levelAfter : Bool)
  /-- Power-on (R120). -/
  | powerOn
  deriving DecidableEq, Repr

/-- What READ puts on the consumer's read port: (frame_ready : u1, decoded_command : u8) (R82). -/
structure ReadPort where
  frameReady : Bool
  decodedCommand : Command
  deriving DecidableEq, Repr

/-- The machine's state. -/
structure State where
  /-- State (DecoderState), the only sequencing state (R11). -/
  decoderState : DecoderState
  /-- RawFrame (R12). -/
  rawFrame : Frame
  /-- BitCounter (R13). -/
  bitCounter : BitCount
  /-- DecodedCommand, the output port decoded_command (R14, R18). -/
  decodedCommand : Command
  /-- ReadyFlag, the output port frame_ready (R15, R18). -/
  readyFlag : Bool
  /-- Armed: INIT has been applied since power-on (R16). -/
  armed : Bool
  /-- DurCount, the duration counter of the front end: DUR_W bits, so below 2^DUR_W in every state of a run (R17). -/
  durCount : Nat
  /-- The build parameters (R5, R19); no step changes them. DESIGN CHOICE, notes/assumptions/5.md. -/
  build : Build
  /-- The inputs to come, the next one first. The model's own field: notes/assumptions/7.md. -/
  inputs : List Input
  /-- What READ has emitted, oldest first (`emit`, R7, R8). The model's own field: notes/assumptions/9.md. -/
  outputs : List ReadPort
  /-- How many free values have been drawn. The model's own field: notes/assumptions/3.md. -/
  draws : Nat
  deriving DecidableEq, Repr

/-- The binary encoding of State (R11, D26); no port shows it. -/
def decoderStateCode : DecoderState → BitVec 2
  | .awaitingHeaderMark => 0b00#2
  | .awaitingHeaderSpace => 0b01#2
  | .awaitingBitMark => 0b10#2
  | .awaitingBitSpace => 0b11#2

/-- The machine right after reset. Reset is INIT, and after INIT every register has the value of R121's table. The
window constants and TICK_US are the defaults of R5, and DUR_OVERFLOW is OPEN. -/
def State.reset : State :=
  { decoderState := .awaitingHeaderMark
    rawFrame := 0x00000000#32
    bitCounter := 0#6
    decodedCommand := 0x00#8
    readyFlag := false
    armed := true
    durCount := 0
    build := Build.default Config.durOverflow
    inputs := []
    outputs := []
    draws := 0 }

end Sys2Proof.Machine
end

