-- ==== Sys2Proof/Machine/Operands.lean ====
section
/-! DEFINITION. How operands are read: the comparator that every duration goes through (spec/40_classifier.md), the value
of a bit space, and the fields of RawFrame (spec/20_memory.md rules R31, R32). -/

namespace Sys2Proof.Machine

/-- The comparator window, `n - n/3 < d < n + n/3`, both bounds strict, division truncating, arithmetic on naturals
(R50, R53). -/
def classify (d n : Nat) : Bool := decide (n - n / 3 < d) && decide (d < n + n / 3)

/-- Does `d` lie in the window `w` of the build `b` (R51)? -/
def accepts (b : Build) (w : Window) (d : Nat) : Bool := classify d (b.nominal w)

/-- The bit that a space of `d` ticks stands for, the BitSpaceZero window tested first; none when it is in neither
window (R70, R106 item 3). -/
def spaceBit (b : Build) (d : Nat) : Option Bool :=
  if accepts b .bitSpaceZero d then some false
  else if accepts b .bitSpaceOne d then some true
  else none

/-- `RawFrame[k] <- b`, every other bit unchanged: a write at a position, not a shift (R72, D7). -/
def writeBit (v : Frame) (k : Nat) (b : Bool) : Frame :=
  if b then v ||| (1#32 <<< k) else v &&& ~~~(1#32 <<< k)

/-- RawFrame[23:16], the third byte received (R32). -/
def commandField (v : Frame) : Command := v.extractLsb' 16 8

end Sys2Proof.Machine
end

