-- ==== Sys2Proof/Machine/Flags.lean ====
section
/-! DEFINITION. ReadyFlag, the block's only flag (spec/10_state.md rule R15), and the two output ports that show it and
DecodedCommand (rule R18). -/

namespace Sys2Proof.Machine

/-- `ReadyFlag <- 1`: only frame completion does this (R15, R73). -/
def raiseReady (s : State) : State := { s with readyFlag := true }

/-- `ReadyFlag <- 0`: the consumer's one write action (R18, R81). -/
def clearReady (s : State) : State := { s with readyFlag := false }

/-- The two output ports, which show the registers directly (R18, D29). -/
def State.port (s : State) : ReadPort := { frameReady := s.readyFlag, decodedCommand := s.decodedCommand }

end Sys2Proof.Machine
end

