-- ==== Sys2Proof/Machine/Ops.lean ====
section
/-! DEFINITION. The named operations over the registers, which the meanings are made of. The block has no memory
(spec/20_memory.md rule R30). `recover` is its one recovery action and stands where another machine takes an exception
(spec/60_exceptions.md rules R100, R103); nothing returns from it. -/

namespace Sys2Proof.Machine

/-- `State <- p`. -/
def enter (p : DecoderState) (s : State) : State := { s with decoderState := p }

/-- Reset to the initial state: `State <- AHM` and nothing else; RawFrame and BitCounter are discarded, not reset
(R74, R100, R103). -/
def recover (s : State) : State := enter .awaitingHeaderMark s

/-- `RawFrame <- 0; BitCounter <- 0`, on an accepted HeaderMark (R64, C2). -/
def clearFrame (s : State) : State := { s with rawFrame := 0#32, bitCounter := 0#6 }

/-- The bit store: `RawFrame[BitCounter] <- b`, then `BitCounter <- BitCounter + 1` (R72). -/
def storeBit (b : Bool) (s : State) : State :=
  { s with rawFrame := writeBit s.rawFrame s.bitCounter.toNat b, bitCounter := s.bitCounter + 1#6 }

/-- Publication: DecodedCommand and ReadyFlag in one step, whatever ReadyFlag was (R35, R37, R73). -/
def publish (s : State) : State := raiseReady { s with decodedCommand := commandField s.rawFrame }

/-- The completion test right after a bit store, on the values just written: it takes priority over the move to ABM
(R73, R106 item 4). -/
def finishBit (s : State) : State :=
  if s.bitCounter = 32#6 then enter .awaitingHeaderMark (publish s) else enter .awaitingBitMark s

/-- `init()` (R80): every register gets its reset value, at any time and from any state (D11). -/
def initDecoder (s : State) : State :=
  { s with
    decoderState := .awaitingHeaderMark
    rawFrame := 0x00000000#32
    bitCounter := 0#6
    decodedCommand := 0x00#8
    readyFlag := false
    armed := true
    durCount := 0 }

/-- `emit(v)`: v goes to the consumer's read port (R7). -/
def emit (v : ReadPort) (s : State) : State := { s with outputs := s.outputs ++ [v] }

/-- The pair a READ gives while Armed = 0: a free value, drawn anew each time (R82, I2). -/
def unarmedPort (n : Nat) : ReadPort :=
  { frameReady := Config.unarmedFrameReady n, decodedCommand := Config.unarmedDecodedCommand n }

/-- The next free value is drawn. -/
def advanceDraws (s : State) : State := { s with draws := s.draws + 1 }

/-- `DurCount <- c` (R17). -/
def setDurCount (c : Nat) (s : State) : State := { s with durCount := c }

/-- Power-on: Armed = 0, and every other register holds a free draw (R120, I1). -/
def powerOn (s : State) : State :=
  { s with
    decoderState := Config.powerOnDecoderState s.draws
    rawFrame := Config.powerOnRawFrame s.draws
    bitCounter := Config.powerOnBitCounter s.draws
    decodedCommand := Config.powerOnDecodedCommand s.draws
    readyFlag := Config.powerOnReadyFlag s.draws
    armed := false
    durCount := Config.powerOnDurCount s.draws % 2 ^ s.build.durW
    draws := s.draws + 1 }

/-- Invariants 1 and 2 of R20: BitCounter ≤ 32, and below 32 outside AHM. A state that breaks one is ill-formed, and the
model refuses an edge in it (D28, I4). -/
def State.coherent (s : State) : Bool :=
  match s.decoderState with
  | .awaitingHeaderMark => decide (s.bitCounter.toNat ≤ 32)
  | .awaitingHeaderSpace => decide (s.bitCounter.toNat < 32)
  | .awaitingBitMark => decide (s.bitCounter.toNat < 32)
  | .awaitingBitSpace => decide (s.bitCounter.toNat < 32)

/-- The input at the head of the queue has been taken. -/
def withInputs (rest : List Input) (s : State) : State := { s with inputs := rest }

end Sys2Proof.Machine
end

