-- ==== Sys2Proof/Machine/Control.lean ====
section
/-! DEFINITION. The events that are not edges: INIT, CLEAR and READ (spec/42_control_consumer.md). None of them reads
State or BitCounter, so they have their effect in every state. -/

namespace Sys2Proof.Machine

/-- INIT (R80). -/
def execInit (s : State) : Host.Outcome State Fault Refusal := .next (initDecoder s)

/-- CLEAR (R81), also while Armed = 0 (D10). -/
def execClear (s : State) : Host.Outcome State Fault Refusal := .next (clearReady s)

/-- READ (R82): both values in one step, no register changed. While Armed = 0 the pair is a free value (I2). -/
def execRead (s : State) : Host.Outcome State Fault Refusal :=
  .next (bif s.armed then emit s.port s else advanceDraws (emit (unarmedPort s.draws) s))

end Sys2Proof.Machine
end

