-- ==== Sys2Proof/Machine/Edge.lean ====
section
/-! DEFINITION. The edge instructions RISE and FALL (spec/41_edge_events.md): the edge step of rule R60, one definition
for each state. `level` is the line's level after the edge, true for a rising edge (spec/30_encoding.md rule R41). The
polarity test comes before the window test in every state (spec/60_exceptions.md rule R106). -/

namespace Sys2Proof.Machine

/-- R64, R65: an accepted HeaderMark on a rising edge starts a frame; anything else changes nothing. -/
def edgeAwaitingHeaderMark (level : Bool) (d : Nat) (s : State) : State :=
  bif level && accepts s.build .headerMark d then enter .awaitingHeaderSpace (clearFrame s)
  else recover s

/-- R66, R67. -/
def edgeAwaitingHeaderSpace (level : Bool) (d : Nat) (s : State) : State :=
  bif !level && accepts s.build .headerSpace d then enter .awaitingBitMark s else recover s

/-- R68, R69. -/
def edgeAwaitingBitMark (level : Bool) (d : Nat) (s : State) : State :=
  bif level && accepts s.build .bitMark d then enter .awaitingBitSpace s else recover s

/-- R70 to R73. -/
def edgeAwaitingBitSpace (level : Bool) (d : Nat) (s : State) : State :=
  bif level then recover s
  else
    match spaceBit s.build d with
    | some b => finishBit (storeBit b s)
    | none => recover s

/-- The edge step of an armed block, by state (R60). -/
def advance (level : Bool) (d : Nat) (s : State) : State :=
  match s.decoderState with
  | .awaitingHeaderMark => edgeAwaitingHeaderMark level d s
  | .awaitingHeaderSpace => edgeAwaitingHeaderSpace level d s
  | .awaitingBitMark => edgeAwaitingBitMark level d s
  | .awaitingBitSpace => edgeAwaitingBitSpace level d s

/-- The complete edge step (R60). The gate on Armed comes before everything else (R63, R106 item 1); then an ill-formed
state is refused (D28, notes/assumptions/11.md). DurCount is the front end's and is not written here
(notes/assumptions/10.md). -/
def edge (level : Bool) (d : Nat) (s : State) : Host.Outcome State Fault Refusal :=
  bif !s.armed then .next s
  else bif !s.coherent then .refused .illFormedState
  else .next (advance level d s)

/-- RISE d (R61). -/
def execRise (d : Nat) (s : State) : Host.Outcome State Fault Refusal := edge true d s

/-- FALL d (R62). -/
def execFall (d : Nat) (s : State) : Host.Outcome State Fault Refusal := edge false d s

end Sys2Proof.Machine
end

