-- ==== Sys2Proof/Machine/FrontEnd.lean ====
section
/-! DEFINITION. The duration source in front of the core (spec/60_exceptions.md rules R108 to R111): ticks and line
transitions, which are inputs of the front end and not event words. -/

namespace Sys2Proof.Machine

/-- DurCount after one tick (R109): what it does past 2^DUR_W - 1 is DUR_OVERFLOW. -/
def nextCount (b : Build) (c : Nat) : Nat :=
  if c < 2 ^ b.durW - 1 then c + 1
  else
    match b.durOverflow with
    | .wrap => 0
    | .saturate => 2 ^ b.durW - 1

/-- `tick()` (R109). -/
def tick (s : State) : State :=
  bif !s.armed then s else setDurCount (nextCount s.build s.durCount) s

/-- `line_transition(level_after)` (R110): capture, clear and edge in one step. The line's level is kept nowhere, so two
transitions to the same level may follow each other (R21, R48, R101). -/
def lineTransition (levelAfter : Bool) (s : State) : Host.Outcome State Fault Refusal :=
  bif !s.armed then .next s else edge levelAfter s.durCount (setDurCount 0 s)

end Sys2Proof.Machine
end

