-- ==== Sys2Proof/Machine/Dispatch.lean ====
section
/-! DEFINITION. One arm for each instruction: its meaning. -/

namespace Sys2Proof.Machine

def exec (i : Instr) (s : State) : Host.Outcome State Fault Refusal :=
  match i with
  | .fall d => Sys2Proof.Machine.execFall d s
  | .rise d => Sys2Proof.Machine.execRise d s
  | .init => Sys2Proof.Machine.execInit s
  | .clear => Sys2Proof.Machine.execClear s
  | .read => Sys2Proof.Machine.execRead s

end Sys2Proof.Machine
end

