-- ==== Sys2Proof/Machine/Deliver.lean ====
section
/-! DEFINITION. How an input reaches `exec`: an event word is decoded, two words of one clock are put in the order that
spec/60_exceptions.md rule R106 gives them, and the other inputs go to the front end. -/

namespace Sys2Proof.Machine

/-- Events performed one after the other (R34), stopping at a refusal. -/
def execAll : List Instr → State → Host.Outcome State Fault Refusal
  | [], s => .next s
  | i :: is, s =>
    match exec i s with
    | .next t => execAll is t
    | .fault r => .fault r
    | .refused r => .refused r

/-- Two events of one clock, in the order in which they are performed: INIT wins and the other event is lost (R106 item
7); the set of a completion wins over a CLEAR, so the CLEAR comes first (R106 item 6); any other pair keeps the order
it is listed in. DESIGN CHOICE for those pairs, notes/assumptions/13.md. -/
def serialize : Instr → Instr → List Instr
  | .init, _ => [.init]
  | _, .init => [.init]
  | .fall d, .clear => [.clear, .fall d]
  | i, j => [i, j]

/-- An event word is decoded, with the build's width, and performed; a reserved kind is refused by name (R44, R83). -/
def deliver (w : Nat) (s : State) : Host.Outcome State Fault Refusal :=
  match decodePort s.build.durW w with
  | .event i => exec i s
  | .reserved k => .refused (.reservedKind k)

/-- Two event words of one clock; a reserved kind in either is refused (R83). -/
def deliverBoth (w v : Nat) (s : State) : Host.Outcome State Fault Refusal :=
  match decodePort s.build.durW w, decodePort s.build.durW v with
  | .event i, .event j => execAll (serialize i j) s
  | .reserved k, _ => .refused (.reservedKind k)
  | .event _, .reserved k => .refused (.reservedKind k)

/-- What each input does. A reset input has exactly the effect of INIT (R121). -/
def perform (x : Input) (s : State) : Host.Outcome State Fault Refusal :=
  match x with
  | .event w => deliver w s
  | .sameClock w v => deliverBoth w v s
  | .reset => execInit s
  | .tick => .next (tick s)
  | .lineTransition levelAfter => lineTransition levelAfter s
  | .powerOn => .next (powerOn s)

end Sys2Proof.Machine
end

