-- ==== Sys2Proof/Machine/Step.lean ====
section
/-! DEFINITION. One step: the next input is taken and performed, as one atomic step (spec/20_memory.md rule R34,
spec/00_scope.md rule R8). -/

namespace Sys2Proof.Machine

/-- One step. With no input to come, the block holds its state (R102, R114): notes/assumptions/8.md. -/
def step (s : State) : Host.Outcome State Fault Refusal :=
  match s.inputs with
  | [] => .next s
  | x :: rest => perform x (withInputs rest s)

/-- `n` steps, stopping at a refusal: the host's run of this machine, over `State` itself (Laws/Step.lean proves the two
equal). -/
def run : Nat → State → Host.Outcome State Fault Refusal
  | 0, s => .next s
  | n + 1, s =>
    match step s with
    | .next t => run n t
    | .fault r => .fault r
    | .refused r => .refused r

/-- The event word `w` presented as the very next input. -/
def State.withFetchWord (s : State) (_nbits w : Nat) : State :=
  withInputs (.event w :: s.inputs) s

/-- A list of events presented, encoded for the build, before the inputs that were to come. -/
def State.withEvents (s : State) (es : List Instr) : State :=
  withInputs (es.map (fun i => Input.event (encodePort s.build.durW i)) ++ s.inputs) s

end Sys2Proof.Machine
end

