-- ==== Sys2Proof/Safety.lean ====
section
/-! DEFINITION. The terms that claims use: the reachable-state invariant (spec/10_state.md rule R20), the agents and
their events (spec/60_exceptions.md rule R112), inputs that have a meaning, what the consumer cannot touch, and an accepted
frame. -/

namespace Sys2Proof.Machine

/-- The five invariants of R20 that a state can show. -/
abbrev RegistersCoherent (s : State) : Prop :=
  s.bitCounter.toNat ≤ 32
  ∧ (s.decoderState ≠ .awaitingHeaderMark → s.bitCounter.toNat < 32)
  ∧ (s.decoderState = .awaitingHeaderSpace → s.bitCounter = 0#6 ∧ s.rawFrame = 0#32)
  ∧ (s.decoderState ≠ .awaitingHeaderMark →
      ∀ k, k < 32 → s.bitCounter.toNat ≤ k → s.rawFrame.getLsbD k = false)
  ∧ (s.decoderState = .awaitingHeaderMark → s.bitCounter = 32#6 → s.decodedCommand = commandField s.rawFrame)

/-- The invariant of every state: the build is well formed, DurCount fits its DUR_W bits (R17), and an armed block is
coherent. Before INIT nothing more is known of the registers (R120). -/
abbrev State.Inv (s : State) : Prop :=
  s.build.wellFormed = true ∧ s.durCount < 2 ^ s.build.durW ∧ (s.armed = true → RegistersCoherent s)

/-- The event words of an input have a meaning, at duration width n: no reserved kind (R83). -/
def Input.hasMeaning (n : Nat) : Input → Bool
  | .event w => match decodePort n w with | .event _ => true | .reserved _ => false
  | .sameClock w v =>
    match decodePort n w, decodePort n v with
    | .event _, .event _ => true
    | .reserved _, _ => false
    | .event _, .reserved _ => false
  | .reset => true
  | .tick => true
  | .lineTransition _ => true
  | .powerOn => true

/-- Every input to come has a meaning. -/
abbrev State.InputsHaveMeaning (s : State) : Prop := ∀ x ∈ s.inputs, x.hasMeaning s.build.durW = true

/-- The three agents (R112). -/
inductive Agent where
  | edgeSource
  | consumer
  | host
  deriving DecidableEq, Repr

/-- The events an agent may issue (R84, R112). The block does not check the issuer, so `step` does not read this:
notes/assumptions/16.md. -/
def Agent.mayIssue : Agent → Instr → Bool
  | .edgeSource, .fall _ => true
  | .edgeSource, .rise _ => true
  | .edgeSource, .init => false
  | .edgeSource, .clear => false
  | .edgeSource, .read => false
  | .consumer, .fall _ => false
  | .consumer, .rise _ => false
  | .consumer, .init => false
  | .consumer, .clear => true
  | .consumer, .read => true
  | .host, .fall _ => false
  | .host, .rise _ => false
  | .host, .init => true
  | .host, .clear => false
  | .host, .read => false

/-- The registers that the consumer can never change (R84, R107): all but ReadyFlag. -/
structure DecoderView where
  decoderState : DecoderState
  rawFrame : Frame
  bitCounter : BitCount
  decodedCommand : Command
  armed : Bool
  durCount : Nat
  deriving DecidableEq, Repr

def State.decoderView (s : State) : DecoderView :=
  { decoderState := s.decoderState, rawFrame := s.rawFrame, bitCounter := s.bitCounter
    decodedCommand := s.decodedCommand, armed := s.armed, durCount := s.durCount }

/-- The edges of a frame with the durations given: a HeaderMark of `hm` ticks, a HeaderSpace of `hs`, and for each bit
a mark and a space (spec/30_encoding.md rule R47, with any durations). -/
def frameEvents (hm hs : Nat) (bits : List (Nat × Nat)) : List Instr :=
  [.rise hm, .fall hs] ++ bits.flatMap fun p => [.rise p.1, .fall p.2]

/-- Every duration of the frame is in its window, and there are 32 bits (R50, R51). -/
abbrev FrameAccepted (b : Build) (hm hs : Nat) (bits : List (Nat × Nat)) : Prop :=
  accepts b .headerMark hm = true ∧ accepts b .headerSpace hs = true ∧ bits.length = 32
  ∧ ∀ p ∈ bits, accepts b .bitMark p.1 = true ∧ (spaceBit b p.2).isSome = true

/-- `t` is `s` after the bit `b` was stored (R72, R73): one position written, the counter one higher, and either the
frame published and AHM entered, when the 32nd bit was stored, or ABM entered with the published values as they were.
Nothing else changes. -/
abbrev StoresBit (b : Bool) (s t : State) : Prop :=
  (∀ i, i < 32 → t.rawFrame.getLsbD i = if i = s.bitCounter.toNat then b else s.rawFrame.getLsbD i)
  ∧ t.bitCounter.toNat = s.bitCounter.toNat + 1
  ∧ (s.bitCounter.toNat = 31 → t.decoderState = .awaitingHeaderMark ∧ t.readyFlag = true
      ∧ ∀ i, i < 8 → t.decodedCommand.getLsbD i = t.rawFrame.getLsbD (16 + i))
  ∧ (s.bitCounter.toNat ≠ 31 → t.decoderState = .awaitingBitMark ∧ t.readyFlag = s.readyFlag
      ∧ t.decodedCommand = s.decodedCommand)
  ∧ t.armed = s.armed ∧ t.durCount = s.durCount ∧ t.build = s.build ∧ t.inputs = s.inputs
  ∧ t.outputs = s.outputs ∧ t.draws = s.draws

/-- `t` holds the frame whose bits the spaces of `bits` stand for (R31, R32), published and not yet read, and is `s`
elsewhere. -/
abbrev PublishesFrame (bits : List (Nat × Nat)) (s t : State) : Prop :=
  (∀ k (h : k < bits.length), spaceBit s.build bits[k].2 = some (t.rawFrame.getLsbD k))
  ∧ t.bitCounter = 32#6 ∧ t.decoderState = .awaitingHeaderMark ∧ t.readyFlag = true
  ∧ (∀ i, i < 8 → t.decodedCommand.getLsbD i = t.rawFrame.getLsbD (16 + i))
  ∧ t.armed = s.armed ∧ t.durCount = s.durCount ∧ t.build = s.build ∧ t.inputs = s.inputs
  ∧ t.outputs = s.outputs ∧ t.draws = s.draws

end Sys2Proof.Machine
end

