-- ==== Sys2Proof/Certificates/Slice0/Obligations.lean ====
section
/-! DEFINITION. The statements about the model. Each docstring names the rule of spec/ it formalises; where a clause
rests on a choice of the model, the docstring names the log entry. -/

open Sys2Proof Sys2Proof.Machine

/-! ## Event words -/

/-- Words that R46 and the encoding vectors write out, and what they stand for. -/
def Obligations.WrittenOutWordsDecode : Prop :=
  decode 0x12328#19 = .event (.rise 9000) ∧ decode 0x01194#19 = .event (.fall 4500)
  ∧ decode 0x10230#19 = .event (.rise 560) ∧ decode 0x0069A#19 = .event (.fall 1690)
  ∧ decode 0x1FFFF#19 = .event (.rise 65535) ∧ decode 0x00000#19 = .event (.fall 0)
  ∧ decode 0x20000#19 = .event .init ∧ decode 0x3FFFF#19 = .event .clear ∧ decode 0x40000#19 = .event .read
  ∧ decode 0x50000#19 = .reserved 0b101#3 ∧ decode 0x60000#19 = .reserved 0b110#3
  ∧ decode 0x7ABCD#19 = .reserved 0b111#3

/-- R45: the decoder reads the kind from the bits above the payload and the duration from the payload, and answers every
word. -/
def Obligations.DecodeReadsKindAndPayload : Prop :=
  ∀ (n : Nat) (w : EventWordAt n),
    decodeAt n w =
      match w.toNat / 2 ^ n with
      | 0 => .event (.fall (w.toNat % 2 ^ n))
      | 1 => .event (.rise (w.toNat % 2 ^ n))
      | 2 => .event .init
      | 3 => .event .clear
      | 4 => .event .read
      | k => .reserved (BitVec.ofNat 3 k)

/-- R40, R41, R42: decoding an encoded well-formed event gives it back, for every duration width. -/
def Obligations.DecodeOfEncodeIsTheEvent : Prop :=
  ∀ (n : Nat) (i : Instr), i.wellFormedAt n = true → decodeAt n (encodeAt n i) = .event i

/-- R40 to R45: what decodes is well formed, an edge's word is the encoding of the edge, and any other word differs from
the encoding of its event only in the ignored payload. -/
def Obligations.EncodeOfDecodeIsTheWord : Prop :=
  ∀ (n : Nat) (w : EventWordAt n) (i : Instr), decodeAt n w = .event i →
    i.wellFormedAt n = true ∧ kindOf n (encodeAt n i) = kindOf n w
    ∧ (i.isEdge = true → encodeAt n i = w) ∧ (i.isEdge = false → payloadOf n (encodeAt n i) = 0)

/-- R43: for INIT, CLEAR and READ the block behaves the same for every payload value, and the encoder writes 0. The number
of a word is its kind times 2^DUR_W plus its payload (R40). -/
def Obligations.PayloadOfANonEdgeIsIgnored : Prop :=
  (∀ (s : State) (k p q : Nat) (rest : List Input), k = 2 ∨ k = 3 ∨ k = 4 →
    p < 2 ^ s.build.durW → q < 2 ^ s.build.durW →
    step { s with inputs := .event (k * 2 ^ s.build.durW + p) :: rest } =
      step { s with inputs := .event (k * 2 ^ s.build.durW + q) :: rest })
  ∧ ∀ (n : Nat) (i : Instr), i.isEdge = false → encodePort n i % 2 ^ n = 0

/-- R44, R83: a word of a reserved kind is refused by name, and the refusal stands for the rest of the run. -/
def Obligations.ReservedKindEndsTheRun : Prop :=
  ∀ (s : State) (k p : Nat) (rest : List Input) (n : Nat), k = 5 ∨ k = 6 ∨ k = 7 → p < 2 ^ s.build.durW →
    s.inputs = .event (k * 2 ^ s.build.durW + p) :: rest →
    step s = .refused (.reservedKind (BitVec.ofNat 3 k))
    ∧ run (n + 1) s = .refused (.reservedKind (BitVec.ofNat 3 k))

/-! ## The step -/

/-- R8, R34: when the word at the head of the queue decodes to an event, the step is that event's meaning, on the state
with the word taken from the queue. -/
def Obligations.StepRunsTheDecodedEvent : Prop :=
  ∀ (s : State) (w : EventWordAt s.build.durW) (rest : List Input) (i : Instr),
    s.inputs = .event w.toNat :: rest → decodeAt s.build.durW w = .event i →
    step s = exec i { s with inputs := rest }

/-- R102, R114: with no event the block holds its state, and goes on as soon as one arrives. That a step with no input
answers the same state is the model's choice, notes/assumptions/8.md. -/
def Obligations.NoInputHoldsTheState : Prop :=
  ∀ (s : State) (n : Nat), s.inputs = [] → run n s = .next s

/-- R121: a reset input has exactly the effect of INIT, and after INIT every register has the value of the table. -/
def Obligations.ResetInputIsInit : Prop :=
  (∀ (s : State) (rest : List Input), s.inputs = .reset :: rest → step s = exec .init { s with inputs := rest })
  ∧ ∀ s : State, ∃ t, exec .init s = .next t
      ∧ t.decoderState = .awaitingHeaderMark ∧ decoderStateCode t.decoderState = 0b00#2
      ∧ t.rawFrame = 0x00000000#32 ∧ t.bitCounter = 0#6
      ∧ t.decodedCommand = 0x00#8 ∧ t.readyFlag = false ∧ t.armed = true ∧ t.durCount = 0

/-- R121's table, and R5's default constants, at reset. -/
def Obligations.ResetGivesTheTable : Prop :=
  State.reset.decoderState = .awaitingHeaderMark ∧ State.reset.rawFrame = 0x00000000#32
  ∧ State.reset.bitCounter = 0#6 ∧ State.reset.decodedCommand = 0x00#8 ∧ State.reset.readyFlag = false
  ∧ State.reset.armed = true ∧ State.reset.durCount = 0
  ∧ State.reset.build.HasDefaultWindows ∧ State.reset.build.durW = 16 ∧ State.reset.build.tickUs = 1

/-- R120, R121: power-on leaves Armed = 0 and fixes no other register, and INIT brings every register to its reset value
whatever power-on left. -/
def Obligations.InitAfterPowerOnGivesTheResetRegisters : Prop :=
  ∀ (s : State) (rest : List Input), s.inputs = .powerOn :: rest →
    ∃ t, step s = .next t ∧ t.armed = false ∧ t.inputs = rest ∧ t.outputs = s.outputs ∧ t.build = s.build
      ∧ ∃ u, exec .init t = .next u ∧ u.decoderView = State.reset.decoderView
          ∧ u.readyFlag = State.reset.readyFlag ∧ u.inputs = rest ∧ u.outputs = s.outputs ∧ u.build = s.build

/-- R63, R109, R110, R120: while Armed = 0 an edge event, a tick and a line transition change no register. -/
def Obligations.BeforeInitEdgesAndTicksChangeNothing : Prop :=
  ∀ s : State, s.armed = false →
    (∀ d, exec (.rise d) s = .next s ∧ exec (.fall d) s = .next s)
    ∧ (∀ rest, s.inputs = .tick :: rest → step s = .next { s with inputs := rest })
    ∧ ∀ rest level, s.inputs = .lineTransition level :: rest → step s = .next { s with inputs := rest }

/-! ## The comparator -/

/-- R50: the window is open at both ends, and arithmetic does not wrap. -/
def Obligations.ComparatorWindowIsStrict : Prop :=
  ∀ d n : Nat, (classify d n = true ↔ n - n / 3 < d ∧ d < n + n / 3)
    ∧ classify (n - n / 3) n = false ∧ classify (n + n / 3) n = false
    ∧ (n < 3 → classify d n = false) ∧ classify 0 n = false

/-- R52: the accepted durations with the default constants. -/
def Obligations.DefaultWindowsAcceptTheTable : Prop :=
  ∀ (b : Build) (d : Nat), b.HasDefaultWindows →
    (accepts b .headerMark d = true ↔ 6001 ≤ d ∧ d ≤ 11999)
    ∧ (accepts b .headerSpace d = true ↔ 3001 ≤ d ∧ d ≤ 5999)
    ∧ (accepts b .bitMark d = true ↔ 375 ≤ d ∧ d ≤ 745)
    ∧ (accepts b .bitSpaceZero d = true ↔ 375 ≤ d ∧ d ≤ 745)
    ∧ (accepts b .bitSpaceOne d = true ↔ 1128 ≤ d ∧ d ≤ 2252)

/-! ## Edges, by state and polarity -/

/-- R61, R62, R100: RISE and FALL complete, whatever the duration, before INIT and in every state that keeps
invariants 1 and 2 of R20. -/
def Obligations.EdgesCompleteInEveryCoherentState : Prop :=
  ∀ (s : State) (d : Nat),
    (s.armed = true → s.bitCounter.toNat ≤ 32 ∧ (s.decoderState ≠ .awaitingHeaderMark → s.bitCounter.toNat < 32)) →
    (∃ t, exec (.rise d) s = .next t) ∧ ∃ t, exec (.fall d) s = .next t

/-- D28, I4: an edge in an armed state with BitCounter above 32, or at 32 outside AHM, is refused by name, and no other
event is ever refused. That INIT, CLEAR and READ run there is the model's choice, notes/assumptions/11.md. -/
def Obligations.OnlyEdgesInIllFormedStatesAreRefused : Prop :=
  ∀ (s : State) (i : Instr),
    (∃ r, exec i s = .refused r) ↔
      i.isEdge = true ∧ s.armed = true
      ∧ (32 < s.bitCounter.toNat ∨ (s.decoderState ≠ .awaitingHeaderMark ∧ s.bitCounter.toNat = 32))

/-- R64: in AHM an accepted HeaderMark clears RawFrame and BitCounter and enters AHS, and any other rising edge changes
nothing. -/
def Obligations.HeaderMarkStartsAFrame : Prop :=
  ∀ (s : State) (d : Nat), s.armed = true → s.coherent = true → s.decoderState = .awaitingHeaderMark →
    (classify d s.build.nomHM = true →
      exec (.rise d) s =
        .next { s with decoderState := .awaitingHeaderSpace, rawFrame := 0#32, bitCounter := 0#6 })
    ∧ (classify d s.build.nomHM = false → exec (.rise d) s = .next s)

/-- R65: in AHM a falling edge changes no register, whatever its duration. -/
def Obligations.FallingEdgeIsIgnoredWhileAwaitingAHeader : Prop :=
  ∀ (s : State) (d : Nat), s.armed = true → s.coherent = true → s.decoderState = .awaitingHeaderMark →
    exec (.fall d) s = .next s

/-- R66: in AHS an accepted HeaderSpace enters ABM, and any other falling edge returns to AHM; nothing else is written. -/
def Obligations.HeaderSpaceEntersTheBits : Prop :=
  ∀ (s : State) (d : Nat), s.armed = true → s.coherent = true → s.decoderState = .awaitingHeaderSpace →
    exec (.fall d) s =
      .next { s with decoderState := if classify d s.build.nomHS = true then .awaitingBitMark else .awaitingHeaderMark }

/-- R68: in ABM an accepted BitMark enters ABS, and any other rising edge returns to AHM; nothing else is written. -/
def Obligations.BitMarkEntersTheSpace : Prop :=
  ∀ (s : State) (d : Nat), s.armed = true → s.coherent = true → s.decoderState = .awaitingBitMark →
    exec (.rise d) s =
      .next { s with decoderState := if classify d s.build.nomBM = true then .awaitingBitSpace else .awaitingHeaderMark }

/-- R67, R69, R71: in AHS, ABM and ABS an edge of the wrong polarity returns to AHM, whatever its duration, and no other
register changes. -/
def Obligations.WrongPolarityReturnsToTheStart : Prop :=
  ∀ (s : State) (d : Nat), s.armed = true → s.coherent = true →
    (s.decoderState = .awaitingHeaderSpace → exec (.rise d) s = .next { s with decoderState := .awaitingHeaderMark })
    ∧ (s.decoderState = .awaitingBitMark → exec (.fall d) s = .next { s with decoderState := .awaitingHeaderMark })
    ∧ (s.decoderState = .awaitingBitSpace → exec (.rise d) s = .next { s with decoderState := .awaitingHeaderMark })

/-- R70, R72, R73: in ABS a falling edge stores the bit its duration stands for, BitSpaceZero first, publishes the
frame with the 32nd bit, and in neither window returns to AHM and writes nothing else. -/
def Obligations.BitSpaceStoresItsBit : Prop :=
  ∀ (s : State) (d : Nat), s.armed = true → s.decoderState = .awaitingBitSpace → s.bitCounter.toNat < 32 →
    (classify d s.build.nomB0 = true → ∃ t, exec (.fall d) s = .next t ∧ StoresBit false s t)
    ∧ (classify d s.build.nomB0 = false → classify d s.build.nomB1 = true →
        ∃ t, exec (.fall d) s = .next t ∧ StoresBit true s t)
    ∧ (classify d s.build.nomB0 = false → classify d s.build.nomB1 = false →
        exec (.fall d) s = .next { s with decoderState := .awaitingHeaderMark })

/-- R74, R100: an edge either takes the protocol one state further or leaves every register but State as it was and State
at AHM. -/
def Obligations.EveryOtherEdgeOnlyResetsState : Prop :=
  ∀ (s t : State) (i : Instr), i.isEdge = true → exec i s = .next t → s.armed = true →
    t = { s with decoderState := .awaitingHeaderMark }
    ∨ (s.decoderState = .awaitingHeaderMark ∧ t.decoderState = .awaitingHeaderSpace)
    ∨ (s.decoderState = .awaitingHeaderSpace ∧ t.decoderState = .awaitingBitMark)
    ∨ (s.decoderState = .awaitingBitMark ∧ t.decoderState = .awaitingBitSpace)
    ∨ (s.decoderState = .awaitingBitSpace ∧ t.bitCounter.toNat = s.bitCounter.toNat + 1
        ∧ (t.decoderState = .awaitingBitMark ∨ (t.decoderState = .awaitingHeaderMark ∧ t.bitCounter = 32#6)))

/-- R60, R61: the frame of the edges. RISE and FALL never write Armed, DurCount, the build, the queue, the read port or
the draws, and RISE never writes DecodedCommand or ReadyFlag. That the event words leave DurCount to the front end is
notes/assumptions/10.md. -/
def Obligations.EdgesLeaveTheRestUnchanged : Prop :=
  ∀ (s t : State) (d : Nat),
    (exec (.rise d) s = .next t ∨ exec (.fall d) s = .next t →
      t.armed = s.armed ∧ t.durCount = s.durCount ∧ t.build = s.build ∧ t.inputs = s.inputs
      ∧ t.outputs = s.outputs ∧ t.draws = s.draws)
    ∧ (exec (.rise d) s = .next t → t.decodedCommand = s.decodedCommand ∧ t.readyFlag = s.readyFlag)

/-! ## INIT, CLEAR, READ -/

/-- R80: every word of kind 0b010 performs INIT, which writes all seven registers in any state and is idempotent. -/
def Obligations.InitWritesEveryRegister : Prop :=
  (∀ s : State, exec .init s =
    .next { s with
      decoderState := .awaitingHeaderMark, rawFrame := 0#32, bitCounter := 0#6, decodedCommand := 0#8
      readyFlag := false, armed := true, durCount := 0 })
  ∧ (∀ s t : State, exec .init s = .next t → exec .init t = .next t)
  ∧ ∀ (s : State) (p : Nat) (rest : List Input), p < 2 ^ s.build.durW →
      s.inputs = .event (2 * 2 ^ s.build.durW + p) :: rest →
      step s = exec .init { s with inputs := rest }

/-- R81: every word of kind 0b011 performs CLEAR, which writes 0 to ReadyFlag and nothing else, armed or not. -/
def Obligations.ClearWritesOnlyReadyFlag : Prop :=
  (∀ s : State, exec .clear s = .next { s with readyFlag := false })
  ∧ (∀ s : State, s.readyFlag = false → exec .clear s = .next s)
  ∧ ∀ (s : State) (p : Nat) (rest : List Input), p < 2 ^ s.build.durW →
      s.inputs = .event (3 * 2 ^ s.build.durW + p) :: rest →
      step s = exec .clear { s with inputs := rest }

/-- R82: every word of kind 0b100 performs READ, which gives the pair (ReadyFlag, DecodedCommand) in one step and changes
no register; while Armed = 0 it gives some pair, which is not fixed. -/
def Obligations.ReadGivesBothPortsAndChangesNoRegister : Prop :=
  (∀ s : State, s.armed = true →
    exec .read s = .next { s with outputs := s.outputs ++ [⟨s.readyFlag, s.decodedCommand⟩] })
  ∧ (∀ s : State, s.armed = false →
    ∃ v, exec .read s = .next { s with outputs := s.outputs ++ [v], draws := s.draws + 1 })
  ∧ ∀ (s : State) (p : Nat) (rest : List Input), p < 2 ^ s.build.durW →
      s.inputs = .event (4 * 2 ^ s.build.durW + p) :: rest →
      step s = exec .read { s with inputs := rest }

/-- R33: reading has no side effect, so a second READ gives the same pair, and a second CLEAR leaves the same state. -/
def Obligations.ReadAndClearAreIdempotent : Prop :=
  (∀ s t u : State, s.armed = true → exec .read s = .next t → exec .read t = .next u →
    u.outputs = s.outputs ++ [s.port, s.port] ∧ u.decoderView = s.decoderView ∧ u.readyFlag = s.readyFlag)
  ∧ ∀ s t : State, exec .clear s = .next t → exec .clear t = .next t

/-- R84, R107: an event the consumer may issue completes in every state and leaves State, RawFrame, BitCounter,
DecodedCommand, Armed and DurCount as they are, and it never sets ReadyFlag (R18, R39). -/
def Obligations.ConsumerEventsLeaveTheDecoderUnchanged : Prop :=
  ∀ (s : State) (i : Instr), Agent.consumer.mayIssue i = true →
    ∃ t, exec i s = .next t ∧ t.decoderView = s.decoderView ∧ t.build = s.build ∧ t.inputs = s.inputs
      ∧ (t.readyFlag = true → s.readyFlag = true)

/-! ## The duration source -/

/-- R109: a tick of an armed block advances DurCount by one, and at 2^DUR_W - 1 does what DUR_OVERFLOW says. -/
def Obligations.TickAdvancesTheCounter : Prop :=
  ∀ (s : State) (rest : List Input), s.inputs = .tick :: rest → s.armed = true →
    (s.durCount < 2 ^ s.build.durW - 1 → step s = .next { s with inputs := rest, durCount := s.durCount + 1 })
    ∧ (s.durCount = 2 ^ s.build.durW - 1 → s.build.durOverflow = .wrap →
        step s = .next { s with inputs := rest, durCount := 0 })
    ∧ (s.durCount = 2 ^ s.build.durW - 1 → s.build.durOverflow = .saturate →
        step s = .next { s with inputs := rest })

/-- R110: a transition of the line, while armed, captures DurCount, clears it and performs the edge in one step. -/
def Obligations.LineTransitionIsAnEdgeWithTheCount : Prop :=
  ∀ (s : State) (rest : List Input) (level : Bool), s.inputs = .lineTransition level :: rest → s.armed = true →
    step s =
      exec (if level = true then .rise s.durCount else .fall s.durCount) { s with inputs := rest, durCount := 0 }

/-- R110, R111: an interval of `m` ticks is delivered as one edge, with the number of ticks modulo 2^DUR_W under `wrap`
and at most 2^DUR_W - 1 under `saturate`. -/
def Obligations.IntervalIsDeliveredAsItsTicks : Prop :=
  ∀ (s : State) (m : Nat) (level : Bool) (rest : List Input) (d : Nat), s.armed = true →
    s.durCount < 2 ^ s.build.durW →
    s.inputs = List.replicate m .tick ++ .lineTransition level :: rest →
    (s.build.durOverflow = .wrap → d = (s.durCount + m) % 2 ^ s.build.durW) →
    (s.build.durOverflow = .saturate → d = min (s.durCount + m) (2 ^ s.build.durW - 1)) →
    run (m + 1) s = exec (if level = true then .rise d else .fall d) { s with inputs := rest, durCount := 0 }

/-! ## Two events in one clock -/

/-- R106 item 7, D11: INIT wins, and the other event of the same clock is lost. -/
def Obligations.InitWinsTheClock : Prop :=
  ∀ (s : State) (w v : Nat) (rest : List Input) (i : Instr),
    (s.inputs = .sameClock w v :: rest ∨ s.inputs = .sameClock v w :: rest) →
    decodePort s.build.durW w = .event .init → decodePort s.build.durW v = .event i →
    step s = exec .init { s with inputs := rest }

/-- R106 item 6, D12: when the 32nd bit and a CLEAR fall in one clock, ReadyFlag is set and DecodedCommand is written. -/
def Obligations.CompletionWinsOverClear : Prop :=
  ∀ (s : State) (w v : Nat) (rest : List Input) (d : Nat),
    (s.inputs = .sameClock w v :: rest ∨ s.inputs = .sameClock v w :: rest) →
    decodePort s.build.durW w = .event (.fall d) → decodePort s.build.durW v = .event .clear →
    s.armed = true → s.decoderState = .awaitingBitSpace → s.bitCounter.toNat = 31 →
    (classify d s.build.nomB0 = true ∨ classify d s.build.nomB1 = true) →
    ∃ t, step s = .next t ∧ t.readyFlag = true ∧ t.decoderState = .awaitingHeaderMark
      ∧ ∀ i, i < 8 → t.decodedCommand.getLsbD i = t.rawFrame.getLsbD (16 + i)

/-! ## Rules about the whole machine -/

/-- R15, R73: an event that raises ReadyFlag is a FALL that stores the 32nd bit, and it writes DecodedCommand in the same
step. -/
def Obligations.OnlyACompletionRaisesReadyFlag : Prop :=
  ∀ (s t : State) (i : Instr), exec i s = .next t → s.readyFlag = false → t.readyFlag = true →
    s.armed = true ∧ s.decoderState = .awaitingBitSpace ∧ s.bitCounter.toNat = 31
    ∧ (∃ d, i = .fall d ∧ (spaceBit s.build d).isSome = true)
    ∧ t.decoderState = .awaitingHeaderMark ∧ t.decodedCommand = commandField t.rawFrame

/-- R14, R35: an event other than INIT that changes DecodedCommand publishes it: ReadyFlag is 1 after it. -/
def Obligations.CommandChangesOnlyWithThePublication : Prop :=
  ∀ (s t : State) (i : Instr), exec i s = .next t → t.decodedCommand ≠ s.decodedCommand →
    i = .init
    ∨ (t.readyFlag = true ∧ t.decodedCommand = commandField t.rawFrame ∧ t.bitCounter = 32#6
        ∧ t.decoderState = .awaitingHeaderMark)

/-- R16: no input but power-on sets Armed to 0, and only INIT, as an event or as a reset, sets it to 1. -/
def Obligations.ArmedIsSetByInitAndClearedByPowerOn : Prop :=
  ∀ (s t : State), step s = .next t →
    (s.armed = true → t.armed = false → s.inputs.head? = some .powerOn)
    ∧ (s.armed = false → t.armed = true →
        s.inputs.head? = some .reset
        ∨ (∃ w, s.inputs.head? = some (.event w) ∧ decodePort s.build.durW w = .event .init)
        ∨ ∃ w v, s.inputs.head? = some (.sameClock w v)
            ∧ (decodePort s.build.durW w = .event .init ∨ decodePort s.build.durW v = .event .init))

/-- R19, R5: no input writes a window constant. That the other build parameters, DUR_W, TICK_US and DUR_OVERFLOW, are
fields that no step writes either is the model's choice, notes/assumptions/5.md. -/
def Obligations.NoStepWritesTheBuild : Prop :=
  ∀ s t : State, step s = .next t → t.build = s.build

/-- R11: State moves only along the cycle of the protocol, or back to AHM. -/
def Obligations.StateMovesAlongTheProtocol : Prop :=
  ∀ (s t : State) (i : Instr), exec i s = .next t →
    t.decoderState = s.decoderState ∨ t.decoderState = .awaitingHeaderMark
    ∨ (s.decoderState = .awaitingHeaderMark ∧ t.decoderState = .awaitingHeaderSpace)
    ∨ (s.decoderState = .awaitingHeaderSpace ∧ t.decoderState = .awaitingBitMark)
    ∨ (s.decoderState = .awaitingBitMark ∧ t.decoderState = .awaitingBitSpace)
    ∨ (s.decoderState = .awaitingBitSpace ∧ t.decoderState = .awaitingBitMark)

/-- R20 at reset. -/
def Obligations.CoherenceHoldsAtReset : Prop := State.reset.Inv

/-- R20, R17: every step keeps the invariants of the registers, DurCount within its width among them, from every state
that has them. -/
def Obligations.EveryStepKeepsTheRegistersCoherent : Prop :=
  ∀ s t : State, s.Inv → step s = .next t → t.Inv

/-- R44, R100, R20: from a coherent state, a run over inputs that have a meaning never stops, and stays coherent. -/
def Obligations.MeaningfulInputsNeverStopTheBlock : Prop :=
  ∀ (s : State) (n : Nat), s.Inv → s.InputsHaveMeaning →
    ∃ t, run n s = .next t ∧ t.Inv ∧ t.InputsHaveMeaning

/-! ## Frames -/

/-- R31, R32, R64 to R73 (§8, W3): from AHM, the 66 edges of a frame whose durations all lie in their windows leave the
bits in RawFrame in arrival order, publish bits 16 to 23 and return to AHM, whatever was published before. -/
def Obligations.AcceptedFrameIsPublished : Prop :=
  ∀ (s : State) (hm hs : Nat) (bits : List (Nat × Nat)),
    s.armed = true → s.coherent = true → s.decoderState = .awaitingHeaderMark →
    FrameAccepted s.build hm hs bits → (∀ i ∈ frameEvents hm hs bits, i.wellFormedAt s.build.durW = true) →
    ∃ t, run 66 (s.withEvents (frameEvents hm hs bits)) = .next t
      ∧ PublishesFrame bits s t

/-- R37 (§8, W5): of two frames with no READ between them only the second one's command is published; nothing of the
first remains. -/
def Obligations.UnreadFrameIsOverwritten : Prop :=
  ∀ (s : State) (hm hs hm' hs' : Nat) (bits bits' : List (Nat × Nat)),
    s.armed = true → s.coherent = true → s.decoderState = .awaitingHeaderMark →
    FrameAccepted s.build hm hs bits → FrameAccepted s.build hm' hs' bits' →
    (∀ i ∈ frameEvents hm hs bits ++ frameEvents hm' hs' bits', i.wellFormedAt s.build.durW = true) →
    ∃ t, run 132 (s.withEvents (frameEvents hm hs bits ++ frameEvents hm' hs' bits')) = .next t
      ∧ PublishesFrame bits' s t

/-- R47, R73: `FRAME v` with nominal durations leaves v in RawFrame and publishes v[23:16], for any build whose windows
are not empty and whose BitSpaceOne nominal lies outside the BitSpaceZero window. -/
def Obligations.NominalFramePublishesItsCommand : Prop :=
  ∀ (s : State) (v : Frame),
    s.armed = true → s.coherent = true → s.decoderState = .awaitingHeaderMark → s.build.wellFormed = true →
    3 ≤ s.build.nomHM → 3 ≤ s.build.nomHS → 3 ≤ s.build.nomBM → 3 ≤ s.build.nomB0 → 3 ≤ s.build.nomB1 →
    classify s.build.nomB1 s.build.nomB0 = false →
    run 66 (s.withEvents (PseudoEvent.expand s.build (.frame v))) =
      .next { s with
        decoderState := .awaitingHeaderMark, rawFrame := v, bitCounter := 32#6
        decodedCommand := v.extractLsb' 16 8, readyFlag := true }

/-- R74 (§8, W4): with the default constants, in AHM no run of edges without a HeaderMark duration changes anything: what
remains of an abandoned attempt never completes a frame. -/
def Obligations.EdgesAfterAnAbandonedFrameChangeNothing : Prop :=
  ∀ (s : State) (es : List Instr),
    s.armed = true → s.coherent = true → s.decoderState = .awaitingHeaderMark → s.build.HasDefaultWindows →
    (∀ i ∈ es, i.isEdge = true ∧ i.wellFormedAt s.build.durW = true ∧ ¬(6001 ≤ i.duration ∧ i.duration ≤ 11999)) →
    run es.length (s.withEvents es) = .next s

/-- R74, R123: no frame completes before a whole header and 32 bits, 66 edges: from AHM with ReadyFlag = 0, fewer than 66
inputs of one event each leave ReadyFlag at 0. -/
def Obligations.NoFrameBeforeSixtySixEdges : Prop :=
  ∀ (s t : State) (n : Nat), n < 66 →
    s.armed = true → s.decoderState = .awaitingHeaderMark → s.readyFlag = false →
    (∀ x ∈ s.inputs, x ≠ .powerOn ∧ ∀ w v, x ≠ .sameClock w v) →
    run n s = .next t → t.readyFlag = false

/-- R84, R107, R112: taking every event of the consumer out of a run changes nothing that the decoder holds. -/
def Obligations.ConsumerCannotDisturbTheDecoder : Prop :=
  ∀ (s t : State) (es : List Instr), (∀ i ∈ es, i.wellFormedAt s.build.durW = true) →
    run es.length (s.withEvents es) = .next t →
    ∃ u, run (es.filter fun i => !Agent.consumer.mayIssue i).length
        (s.withEvents (es.filter fun i => !Agent.consumer.mayIssue i)) = .next u
      ∧ u.decoderView = t.decoderView ∧ u.inputs = t.inputs ∧ u.build = t.build

/-- R36, R39, R125: a frame that completes between a READ and the CLEAR after it is lost: READ gave the older pair,
ReadyFlag is 0 after the CLEAR, and DecodedCommand is the new command. -/
def Obligations.FrameBetweenReadAndClearIsLost : Prop :=
  ∀ (s : State) (d : Nat), s.armed = true → s.decoderState = .awaitingBitSpace → s.bitCounter.toNat = 31 →
    (spaceBit s.build d).isSome = true → d < 2 ^ s.build.durW →
    ∃ t, run 3 (s.withEvents [.read, .fall d, .clear]) = .next t
      ∧ t.outputs = s.outputs ++ [⟨s.readyFlag, s.decodedCommand⟩] ∧ t.readyFlag = false
      ∧ t.decodedCommand = commandField t.rawFrame ∧ t.bitCounter = 32#6 ∧ t.inputs = s.inputs
end

