-- ==== Sys2Proof/Laws/Decode.lean ====
section
/-! SUPPORT. The two fields of an assembled event word, and decoding by kind, for any duration width. -/

namespace Sys2Proof

/-- The kind field of kind above payload is the kind (R40). -/
@[simp] theorem kindOf_append (n : Nat) (k : KindCode) (p : BitVec n) : kindOf n (k ++ p) = k := by
  apply BitVec.eq_of_getLsbD_eq
  intro i hi
  simp [kindOf, hi, BitVec.getLsbD_append]

/-- The payload field of kind above payload is the payload (R40, R42). -/
@[simp] theorem payloadOf_append (n : Nat) (k : KindCode) (p : BitVec n) : payloadOf n (k ++ p) = p.toNat := by
  unfold payloadOf
  congr 1
  apply BitVec.eq_of_getLsbD_eq
  intro i hi
  simp [hi, BitVec.getLsbD_append]

/-- A word is its kind above its payload. -/
theorem append_fields (n : Nat) (w : EventWordAt n) : kindOf n w ++ w.extractLsb' 0 n = w := by
  apply BitVec.eq_of_getLsbD_eq
  intro i hi
  by_cases h : i < n
  · simp [BitVec.getLsbD_append, h]
  · have : i - n < 3 := by omega
    simp [kindOf]

theorem payloadOf_lt (n : Nat) (w : EventWordAt n) : payloadOf n w < 2 ^ n := BitVec.isLt _

/-- The number on the port's lines is decoded as the word it is. -/
@[simp] theorem decodePort_toNat (n : Nat) (w : EventWordAt n) : decodePort n w.toNat = decodeAt n w := by
  rw [decodePort, BitVec.ofNat_toNat, BitVec.setWidth_eq]

@[simp] theorem decodePort_encodePort (n : Nat) (i : Instr) :
    decodePort n (encodePort n i) = decodeAt n (encodeAt n i) := decodePort_toNat n _

/-- What decoding answers is fixed by the kind (R41, R45). -/
theorem decodeAt_eq_event (n : Nat) (w : EventWordAt n) (i : Instr) (h : decodeAt n w = .event i) :
    kindCode i = kindOf n w ∧ (∀ d, i = .fall d ∨ i = .rise d → d = payloadOf n w) := by
  unfold decodeAt at h
  split at h
  · rename_i hk; cases h; exact ⟨hk.symm, by rintro d (h | h) <;> cases h; rfl⟩
  split at h
  · rename_i hk; cases h; exact ⟨hk.symm, by rintro d (h | h) <;> cases h; rfl⟩
  split at h
  · rename_i hk; cases h; exact ⟨hk.symm, by rintro d (h | h) <;> cases h⟩
  split at h
  · rename_i hk; cases h; exact ⟨hk.symm, by rintro d (h | h) <;> cases h⟩
  split at h
  · rename_i hk; cases h; exact ⟨hk.symm, by rintro d (h | h) <;> cases h⟩
  · cases h

/-- The kinds that stand for no event (R44). -/
theorem reserved_kinds (c : KindCode) :
    (c ≠ 0b000#3 ∧ c ≠ 0b001#3 ∧ c ≠ 0b010#3 ∧ c ≠ 0b011#3 ∧ c ≠ 0b100#3) ↔ 5 ≤ c.toNat := by
  revert c; decide

/-- The decoder refuses exactly the kinds of R44. -/
theorem decodeAt_eq_reserved (n : Nat) (w : EventWordAt n) (k : KindCode) :
    decodeAt n w = .reserved k ↔ kindOf n w = k ∧ 5 ≤ k.toNat := by
  rw [← reserved_kinds k]
  unfold decodeAt
  constructor
  · intro h
    split_ifs at h; cases h
    exact ⟨rfl, by assumption, by assumption, by assumption, by assumption, by assumption⟩
  · rintro ⟨rfl, h0, h1, h2, h3, h4⟩
    simp [h0, h1, h2, h3, h4]

end Sys2Proof
end

