-- ==== Sys2Proof/Laws/State.lean ====
section
/-! SUPPORT. What each operation of Machine/Ops.lean and Machine/Flags.lean leaves in each field, true by definition:
later proofs rewrite with these and never unfold a record update. -/

namespace Sys2Proof.Machine

section enter

@[simp] theorem enter_decoderState (p : DecoderState) (s : State) : (enter p s).decoderState = p := rfl
@[simp] theorem enter_rawFrame (p : DecoderState) (s : State) : (enter p s).rawFrame = s.rawFrame := rfl
@[simp] theorem enter_bitCounter (p : DecoderState) (s : State) : (enter p s).bitCounter = s.bitCounter := rfl
@[simp] theorem enter_decodedCommand (p : DecoderState) (s : State) : (enter p s).decodedCommand = s.decodedCommand := rfl
@[simp] theorem enter_readyFlag (p : DecoderState) (s : State) : (enter p s).readyFlag = s.readyFlag := rfl
@[simp] theorem enter_armed (p : DecoderState) (s : State) : (enter p s).armed = s.armed := rfl
@[simp] theorem enter_durCount (p : DecoderState) (s : State) : (enter p s).durCount = s.durCount := rfl
@[simp] theorem enter_build (p : DecoderState) (s : State) : (enter p s).build = s.build := rfl
@[simp] theorem enter_inputs (p : DecoderState) (s : State) : (enter p s).inputs = s.inputs := rfl
@[simp] theorem enter_outputs (p : DecoderState) (s : State) : (enter p s).outputs = s.outputs := rfl
@[simp] theorem enter_draws (p : DecoderState) (s : State) : (enter p s).draws = s.draws := rfl

end enter

section recover

@[simp] theorem recover_decoderState (s : State) : (recover s).decoderState = .awaitingHeaderMark := rfl
@[simp] theorem recover_rawFrame (s : State) : (recover s).rawFrame = s.rawFrame := rfl
@[simp] theorem recover_bitCounter (s : State) : (recover s).bitCounter = s.bitCounter := rfl
@[simp] theorem recover_decodedCommand (s : State) : (recover s).decodedCommand = s.decodedCommand := rfl
@[simp] theorem recover_readyFlag (s : State) : (recover s).readyFlag = s.readyFlag := rfl
@[simp] theorem recover_armed (s : State) : (recover s).armed = s.armed := rfl
@[simp] theorem recover_durCount (s : State) : (recover s).durCount = s.durCount := rfl
@[simp] theorem recover_build (s : State) : (recover s).build = s.build := rfl
@[simp] theorem recover_inputs (s : State) : (recover s).inputs = s.inputs := rfl
@[simp] theorem recover_outputs (s : State) : (recover s).outputs = s.outputs := rfl
@[simp] theorem recover_draws (s : State) : (recover s).draws = s.draws := rfl

end recover

section clearFrame

@[simp] theorem clearFrame_decoderState (s : State) : (clearFrame s).decoderState = s.decoderState := rfl
@[simp] theorem clearFrame_rawFrame (s : State) : (clearFrame s).rawFrame = 0#32 := rfl
@[simp] theorem clearFrame_bitCounter (s : State) : (clearFrame s).bitCounter = 0#6 := rfl
@[simp] theorem clearFrame_decodedCommand (s : State) : (clearFrame s).decodedCommand = s.decodedCommand := rfl
@[simp] theorem clearFrame_readyFlag (s : State) : (clearFrame s).readyFlag = s.readyFlag := rfl
@[simp] theorem clearFrame_armed (s : State) : (clearFrame s).armed = s.armed := rfl
@[simp] theorem clearFrame_durCount (s : State) : (clearFrame s).durCount = s.durCount := rfl
@[simp] theorem clearFrame_build (s : State) : (clearFrame s).build = s.build := rfl
@[simp] theorem clearFrame_inputs (s : State) : (clearFrame s).inputs = s.inputs := rfl
@[simp] theorem clearFrame_outputs (s : State) : (clearFrame s).outputs = s.outputs := rfl
@[simp] theorem clearFrame_draws (s : State) : (clearFrame s).draws = s.draws := rfl

end clearFrame

section storeBit

@[simp] theorem storeBit_decoderState (b : Bool) (s : State) : (storeBit b s).decoderState = s.decoderState := rfl
@[simp] theorem storeBit_rawFrame (b : Bool) (s : State) : (storeBit b s).rawFrame = writeBit s.rawFrame s.bitCounter.toNat b := rfl
@[simp] theorem storeBit_bitCounter (b : Bool) (s : State) : (storeBit b s).bitCounter = s.bitCounter + 1#6 := rfl
@[simp] theorem storeBit_decodedCommand (b : Bool) (s : State) : (storeBit b s).decodedCommand = s.decodedCommand := rfl
@[simp] theorem storeBit_readyFlag (b : Bool) (s : State) : (storeBit b s).readyFlag = s.readyFlag := rfl
@[simp] theorem storeBit_armed (b : Bool) (s : State) : (storeBit b s).armed = s.armed := rfl
@[simp] theorem storeBit_durCount (b : Bool) (s : State) : (storeBit b s).durCount = s.durCount := rfl
@[simp] theorem storeBit_build (b : Bool) (s : State) : (storeBit b s).build = s.build := rfl
@[simp] theorem storeBit_inputs (b : Bool) (s : State) : (storeBit b s).inputs = s.inputs := rfl
@[simp] theorem storeBit_outputs (b : Bool) (s : State) : (storeBit b s).outputs = s.outputs := rfl
@[simp] theorem storeBit_draws (b : Bool) (s : State) : (storeBit b s).draws = s.draws := rfl

end storeBit

section raiseReady

@[simp] theorem raiseReady_decoderState (s : State) : (raiseReady s).decoderState = s.decoderState := rfl
@[simp] theorem raiseReady_rawFrame (s : State) : (raiseReady s).rawFrame = s.rawFrame := rfl
@[simp] theorem raiseReady_bitCounter (s : State) : (raiseReady s).bitCounter = s.bitCounter := rfl
@[simp] theorem raiseReady_decodedCommand (s : State) : (raiseReady s).decodedCommand = s.decodedCommand := rfl
@[simp] theorem raiseReady_readyFlag (s : State) : (raiseReady s).readyFlag = true := rfl
@[simp] theorem raiseReady_armed (s : State) : (raiseReady s).armed = s.armed := rfl
@[simp] theorem raiseReady_durCount (s : State) : (raiseReady s).durCount = s.durCount := rfl
@[simp] theorem raiseReady_build (s : State) : (raiseReady s).build = s.build := rfl
@[simp] theorem raiseReady_inputs (s : State) : (raiseReady s).inputs = s.inputs := rfl
@[simp] theorem raiseReady_outputs (s : State) : (raiseReady s).outputs = s.outputs := rfl
@[simp] theorem raiseReady_draws (s : State) : (raiseReady s).draws = s.draws := rfl

end raiseReady

section clearReady

@[simp] theorem clearReady_decoderState (s : State) : (clearReady s).decoderState = s.decoderState := rfl
@[simp] theorem clearReady_rawFrame (s : State) : (clearReady s).rawFrame = s.rawFrame := rfl
@[simp] theorem clearReady_bitCounter (s : State) : (clearReady s).bitCounter = s.bitCounter := rfl
@[simp] theorem clearReady_decodedCommand (s : State) : (clearReady s).decodedCommand = s.decodedCommand := rfl
@[simp] theorem clearReady_readyFlag (s : State) : (clearReady s).readyFlag = false := rfl
@[simp] theorem clearReady_armed (s : State) : (clearReady s).armed = s.armed := rfl
@[simp] theorem clearReady_durCount (s : State) : (clearReady s).durCount = s.durCount := rfl
@[simp] theorem clearReady_build (s : State) : (clearReady s).build = s.build := rfl
@[simp] theorem clearReady_inputs (s : State) : (clearReady s).inputs = s.inputs := rfl
@[simp] theorem clearReady_outputs (s : State) : (clearReady s).outputs = s.outputs := rfl
@[simp] theorem clearReady_draws (s : State) : (clearReady s).draws = s.draws := rfl

end clearReady

section publish

@[simp] theorem publish_decoderState (s : State) : (publish s).decoderState = s.decoderState := rfl
@[simp] theorem publish_rawFrame (s : State) : (publish s).rawFrame = s.rawFrame := rfl
@[simp] theorem publish_bitCounter (s : State) : (publish s).bitCounter = s.bitCounter := rfl
@[simp] theorem publish_decodedCommand (s : State) : (publish s).decodedCommand = commandField s.rawFrame := rfl
@[simp] theorem publish_readyFlag (s : State) : (publish s).readyFlag = true := rfl
@[simp] theorem publish_armed (s : State) : (publish s).armed = s.armed := rfl
@[simp] theorem publish_durCount (s : State) : (publish s).durCount = s.durCount := rfl
@[simp] theorem publish_build (s : State) : (publish s).build = s.build := rfl
@[simp] theorem publish_inputs (s : State) : (publish s).inputs = s.inputs := rfl
@[simp] theorem publish_outputs (s : State) : (publish s).outputs = s.outputs := rfl
@[simp] theorem publish_draws (s : State) : (publish s).draws = s.draws := rfl

end publish

section initDecoder

@[simp] theorem initDecoder_decoderState (s : State) : (initDecoder s).decoderState = .awaitingHeaderMark := rfl
@[simp] theorem initDecoder_rawFrame (s : State) : (initDecoder s).rawFrame = 0#32 := rfl
@[simp] theorem initDecoder_bitCounter (s : State) : (initDecoder s).bitCounter = 0#6 := rfl
@[simp] theorem initDecoder_decodedCommand (s : State) : (initDecoder s).decodedCommand = 0#8 := rfl
@[simp] theorem initDecoder_readyFlag (s : State) : (initDecoder s).readyFlag = false := rfl
@[simp] theorem initDecoder_armed (s : State) : (initDecoder s).armed = true := rfl
@[simp] theorem initDecoder_durCount (s : State) : (initDecoder s).durCount = 0 := rfl
@[simp] theorem initDecoder_build (s : State) : (initDecoder s).build = s.build := rfl
@[simp] theorem initDecoder_inputs (s : State) : (initDecoder s).inputs = s.inputs := rfl
@[simp] theorem initDecoder_outputs (s : State) : (initDecoder s).outputs = s.outputs := rfl
@[simp] theorem initDecoder_draws (s : State) : (initDecoder s).draws = s.draws := rfl

end initDecoder

section emit

@[simp] theorem emit_decoderState (v : ReadPort) (s : State) : (emit v s).decoderState = s.decoderState := rfl
@[simp] theorem emit_rawFrame (v : ReadPort) (s : State) : (emit v s).rawFrame = s.rawFrame := rfl
@[simp] theorem emit_bitCounter (v : ReadPort) (s : State) : (emit v s).bitCounter = s.bitCounter := rfl
@[simp] theorem emit_decodedCommand (v : ReadPort) (s : State) : (emit v s).decodedCommand = s.decodedCommand := rfl
@[simp] theorem emit_readyFlag (v : ReadPort) (s : State) : (emit v s).readyFlag = s.readyFlag := rfl
@[simp] theorem emit_armed (v : ReadPort) (s : State) : (emit v s).armed = s.armed := rfl
@[simp] theorem emit_durCount (v : ReadPort) (s : State) : (emit v s).durCount = s.durCount := rfl
@[simp] theorem emit_build (v : ReadPort) (s : State) : (emit v s).build = s.build := rfl
@[simp] theorem emit_inputs (v : ReadPort) (s : State) : (emit v s).inputs = s.inputs := rfl
@[simp] theorem emit_outputs (v : ReadPort) (s : State) : (emit v s).outputs = s.outputs ++ [v] := rfl
@[simp] theorem emit_draws (v : ReadPort) (s : State) : (emit v s).draws = s.draws := rfl

end emit

section advanceDraws

@[simp] theorem advanceDraws_decoderState (s : State) : (advanceDraws s).decoderState = s.decoderState := rfl
@[simp] theorem advanceDraws_rawFrame (s : State) : (advanceDraws s).rawFrame = s.rawFrame := rfl
@[simp] theorem advanceDraws_bitCounter (s : State) : (advanceDraws s).bitCounter = s.bitCounter := rfl
@[simp] theorem advanceDraws_decodedCommand (s : State) : (advanceDraws s).decodedCommand = s.decodedCommand := rfl
@[simp] theorem advanceDraws_readyFlag (s : State) : (advanceDraws s).readyFlag = s.readyFlag := rfl
@[simp] theorem advanceDraws_armed (s : State) : (advanceDraws s).armed = s.armed := rfl
@[simp] theorem advanceDraws_durCount (s : State) : (advanceDraws s).durCount = s.durCount := rfl
@[simp] theorem advanceDraws_build (s : State) : (advanceDraws s).build = s.build := rfl
@[simp] theorem advanceDraws_inputs (s : State) : (advanceDraws s).inputs = s.inputs := rfl
@[simp] theorem advanceDraws_outputs (s : State) : (advanceDraws s).outputs = s.outputs := rfl
@[simp] theorem advanceDraws_draws (s : State) : (advanceDraws s).draws = s.draws + 1 := rfl

end advanceDraws

section setDurCount

@[simp] theorem setDurCount_decoderState (c : Nat) (s : State) : (setDurCount c s).decoderState = s.decoderState := rfl
@[simp] theorem setDurCount_rawFrame (c : Nat) (s : State) : (setDurCount c s).rawFrame = s.rawFrame := rfl
@[simp] theorem setDurCount_bitCounter (c : Nat) (s : State) : (setDurCount c s).bitCounter = s.bitCounter := rfl
@[simp] theorem setDurCount_decodedCommand (c : Nat) (s : State) : (setDurCount c s).decodedCommand = s.decodedCommand := rfl
@[simp] theorem setDurCount_readyFlag (c : Nat) (s : State) : (setDurCount c s).readyFlag = s.readyFlag := rfl
@[simp] theorem setDurCount_armed (c : Nat) (s : State) : (setDurCount c s).armed = s.armed := rfl
@[simp] theorem setDurCount_durCount (c : Nat) (s : State) : (setDurCount c s).durCount = c := rfl
@[simp] theorem setDurCount_build (c : Nat) (s : State) : (setDurCount c s).build = s.build := rfl
@[simp] theorem setDurCount_inputs (c : Nat) (s : State) : (setDurCount c s).inputs = s.inputs := rfl
@[simp] theorem setDurCount_outputs (c : Nat) (s : State) : (setDurCount c s).outputs = s.outputs := rfl
@[simp] theorem setDurCount_draws (c : Nat) (s : State) : (setDurCount c s).draws = s.draws := rfl

end setDurCount

section powerOn

@[simp] theorem powerOn_decoderState (s : State) : (powerOn s).decoderState = Config.powerOnDecoderState s.draws := rfl
@[simp] theorem powerOn_rawFrame (s : State) : (powerOn s).rawFrame = Config.powerOnRawFrame s.draws := rfl
@[simp] theorem powerOn_bitCounter (s : State) : (powerOn s).bitCounter = Config.powerOnBitCounter s.draws := rfl
@[simp] theorem powerOn_decodedCommand (s : State) : (powerOn s).decodedCommand = Config.powerOnDecodedCommand s.draws := rfl
@[simp] theorem powerOn_readyFlag (s : State) : (powerOn s).readyFlag = Config.powerOnReadyFlag s.draws := rfl
@[simp] theorem powerOn_armed (s : State) : (powerOn s).armed = false := rfl
@[simp] theorem powerOn_durCount (s : State) : (powerOn s).durCount = Config.powerOnDurCount s.draws % 2 ^ s.build.durW := rfl
@[simp] theorem powerOn_build (s : State) : (powerOn s).build = s.build := rfl
@[simp] theorem powerOn_inputs (s : State) : (powerOn s).inputs = s.inputs := rfl
@[simp] theorem powerOn_outputs (s : State) : (powerOn s).outputs = s.outputs := rfl
@[simp] theorem powerOn_draws (s : State) : (powerOn s).draws = s.draws + 1 := rfl

end powerOn

section withInputs

@[simp] theorem withInputs_decoderState (rest : List Input) (s : State) : (withInputs rest s).decoderState = s.decoderState := rfl
@[simp] theorem withInputs_rawFrame (rest : List Input) (s : State) : (withInputs rest s).rawFrame = s.rawFrame := rfl
@[simp] theorem withInputs_bitCounter (rest : List Input) (s : State) : (withInputs rest s).bitCounter = s.bitCounter := rfl
@[simp] theorem withInputs_decodedCommand (rest : List Input) (s : State) : (withInputs rest s).decodedCommand = s.decodedCommand := rfl
@[simp] theorem withInputs_readyFlag (rest : List Input) (s : State) : (withInputs rest s).readyFlag = s.readyFlag := rfl
@[simp] theorem withInputs_armed (rest : List Input) (s : State) : (withInputs rest s).armed = s.armed := rfl
@[simp] theorem withInputs_durCount (rest : List Input) (s : State) : (withInputs rest s).durCount = s.durCount := rfl
@[simp] theorem withInputs_build (rest : List Input) (s : State) : (withInputs rest s).build = s.build := rfl
@[simp] theorem withInputs_inputs (rest : List Input) (s : State) : (withInputs rest s).inputs = rest := rfl
@[simp] theorem withInputs_outputs (rest : List Input) (s : State) : (withInputs rest s).outputs = s.outputs := rfl
@[simp] theorem withInputs_draws (rest : List Input) (s : State) : (withInputs rest s).draws = s.draws := rfl

end withInputs

@[simp] theorem port_frameReady (s : State) : s.port.frameReady = s.readyFlag := rfl
@[simp] theorem port_decodedCommand (s : State) : s.port.decodedCommand = s.decodedCommand := rfl

/-- Two inputs lists put in place one after the other: the last one stands. -/
@[simp] theorem withInputs_withInputs (xs ys : List Input) (s : State) :
    withInputs xs (withInputs ys s) = withInputs xs s := rfl

@[simp] theorem withInputs_self (s : State) : withInputs s.inputs s = s := rfl

/-- INIT is idempotent on the registers (R80). -/
@[simp] theorem initDecoder_initDecoder (s : State) : initDecoder (initDecoder s) = initDecoder s := rfl

/-- A register the recovery action meets already in AHM is left as it is (R103: errors do not nest). -/
theorem recover_of_awaitingHeaderMark {s : State} (h : s.decoderState = .awaitingHeaderMark) : recover s = s := by
  cases s; cases h; rfl

/-- `coherent` does not read the inputs, the outputs, DurCount or the draws. -/
@[simp] theorem coherent_withInputs (rest : List Input) (s : State) : (withInputs rest s).coherent = s.coherent := rfl
@[simp] theorem coherent_setDurCount (c : Nat) (s : State) : (setDurCount c s).coherent = s.coherent := rfl
@[simp] theorem coherent_clearReady (s : State) : (clearReady s).coherent = s.coherent := rfl
@[simp] theorem coherent_emit (v : ReadPort) (s : State) : (emit v s).coherent = s.coherent := rfl
@[simp] theorem coherent_advanceDraws (s : State) : (advanceDraws s).coherent = s.coherent := rfl

/-- `coherent` says exactly what invariants 1 and 2 of R20 say. -/
theorem coherent_iff (s : State) :
    s.coherent = true ↔
      s.bitCounter.toNat ≤ 32 ∧ (s.decoderState ≠ .awaitingHeaderMark → s.bitCounter.toNat < 32) := by
  unfold State.coherent
  cases s.decoderState <;> simp <;> omega

theorem coherent_of_registersCoherent {s : State} (h : RegistersCoherent s) : s.coherent = true :=
  (coherent_iff s).2 ⟨h.1, h.2.1⟩

/-- In AwaitingBitSpace, a coherent state's counter is below 32: the bit store has a position to write (R72). -/
theorem bitCounter_lt_of_coherent {s : State} (h : s.coherent = true) (hp : s.decoderState ≠ .awaitingHeaderMark) :
    s.bitCounter.toNat < 32 :=
  ((coherent_iff s).1 h).2 hp

end Sys2Proof.Machine
end

