-- ==== Sys2Proof/Laws/Operands.lean ====
section
/-! SUPPORT. What the comparator, the bit-space reading, the bit store and the command field answer. -/

namespace Sys2Proof.Machine

/-- The comparator as an arithmetic fact (R50). -/
theorem classify_eq_true (d n : Nat) : classify d n = true ↔ n - n / 3 < d ∧ d < n + n / 3 := by
  simp [classify]

theorem accepts_eq_true (b : Build) (w : Window) (d : Nat) :
    accepts b w d = true ↔ b.nominal w - b.nominal w / 3 < d ∧ d < b.nominal w + b.nominal w / 3 :=
  classify_eq_true d _

/-- When a space reads as a bit: BitSpaceZero is tested first (R70). -/
theorem spaceBit_eq_some (b : Build) (d : Nat) (v : Bool) :
    spaceBit b d = some v ↔
      (v = false ∧ accepts b .bitSpaceZero d = true)
      ∨ (v = true ∧ accepts b .bitSpaceZero d = false ∧ accepts b .bitSpaceOne d = true) := by
  unfold spaceBit
  cases accepts b .bitSpaceZero d <;> cases accepts b .bitSpaceOne d <;> cases v <;> simp

theorem spaceBit_eq_none (b : Build) (d : Nat) :
    spaceBit b d = none ↔ accepts b .bitSpaceZero d = false ∧ accepts b .bitSpaceOne d = false := by
  unfold spaceBit
  cases accepts b .bitSpaceZero d <;> cases accepts b .bitSpaceOne d <;> simp

/-- The bit store writes position `k` and no other (R72). -/
theorem getLsbD_writeBit (v : Frame) (k : Nat) (b : Bool) (i : Nat) (hi : i < 32) :
    (writeBit v k b).getLsbD i = if i = k then b else v.getLsbD i := by
  unfold writeBit
  by_cases h : i = k
  · subst h
    cases b <;> simp [hi]
  · have h' : ¬(k ≤ i ∧ i - k = 0) := by omega
    cases b <;> simp [hi, h] <;> intro <;> omega

/-- Storing a 0 over a 0 leaves the value as it is (R72). -/
theorem writeBit_false_of_clear (v : Frame) (k : Nat) (h : v.getLsbD k = false) : writeBit v k false = v := by
  apply BitVec.eq_of_getLsbD_eq
  intro i hi
  rw [getLsbD_writeBit v k false i hi]
  split
  · subst i; exact h.symm
  · rfl

/-- Bit `i` of the command is bit 16 + i of the frame (R32). -/
theorem getLsbD_commandField (v : Frame) (i : Nat) (hi : i < 8) :
    (commandField v).getLsbD i = v.getLsbD (16 + i) := by
  simp [commandField, hi]

/-- The counter's successor as a number, below the counter's top. -/
theorem toNat_bitCounter_succ (c : BitCount) (h : c.toNat < 32) : (c + 1#6).toNat = c.toNat + 1 := by
  rw [BitVec.toNat_add]
  simp
  omega

/-- The completion test as a number. -/
theorem bitCounter_succ_eq_32 (c : BitCount) (h : c.toNat < 32) : c + 1#6 = 32#6 ↔ c.toNat = 31 := by
  rw [← BitVec.toNat_inj, toNat_bitCounter_succ c h]
  simp

end Sys2Proof.Machine
end

