-- ==== Sys2Proof/Laws/Edge.lean ====
section
/-! SUPPORT. What an edge step can do, said once: one equation for each state and polarity, what a stored bit leaves, and
an inversion lemma for `advance` and for `edge`. -/

namespace Sys2Proof.Machine

/-- Storing a bit, below the top of the counter, is a move to AwaitingBitMark or the publication of a frame (R72, R73). -/
theorem finishBit_storeBit (b : Bool) (s : State) (h : s.bitCounter.toNat < 32) :
    finishBit (storeBit b s) =
      if s.bitCounter.toNat = 31 then enter .awaitingHeaderMark (publish (storeBit b s))
      else enter .awaitingBitMark (storeBit b s) := by
  simp only [finishBit, storeBit_bitCounter, bitCounter_succ_eq_32 _ h]

/-- What an armed, coherent block does on an edge: every case, with its guard. -/
theorem advance_cases (level : Bool) (d : Nat) (s : State) :
    (s.decoderState = .awaitingHeaderMark ∧ level = true ∧ accepts s.build .headerMark d = true
      ∧ advance level d s = enter .awaitingHeaderSpace (clearFrame s))
    ∨ (s.decoderState = .awaitingHeaderSpace ∧ level = false ∧ accepts s.build .headerSpace d = true
      ∧ advance level d s = enter .awaitingBitMark s)
    ∨ (s.decoderState = .awaitingBitMark ∧ level = true ∧ accepts s.build .bitMark d = true
      ∧ advance level d s = enter .awaitingBitSpace s)
    ∨ (∃ b, s.decoderState = .awaitingBitSpace ∧ level = false ∧ spaceBit s.build d = some b
      ∧ advance level d s = finishBit (storeBit b s))
    ∨ advance level d s = recover s := by
  unfold advance
  cases hp : s.decoderState with
  | awaitingHeaderMark =>
    cases level <;> cases ha : accepts s.build .headerMark d <;> simp [edgeAwaitingHeaderMark, ha]
  | awaitingHeaderSpace =>
    cases level <;> cases ha : accepts s.build .headerSpace d <;> simp [edgeAwaitingHeaderSpace, ha]
  | awaitingBitMark =>
    cases level <;> cases ha : accepts s.build .bitMark d <;> simp [edgeAwaitingBitMark, ha]
  | awaitingBitSpace =>
    cases level <;> cases hb : spaceBit s.build d <;> simp [edgeAwaitingBitSpace, hb]

/-- What `edge` answers when it goes on (R60, R63). -/
theorem edge_eq_next (level : Bool) (d : Nat) (s t : State) :
    edge level d s = .next t ↔
      (s.armed = false ∧ t = s) ∨ (s.armed = true ∧ s.coherent = true ∧ t = advance level d s) := by
  unfold edge
  cases s.armed <;> cases s.coherent <;> simp [eq_comm]

/-- The one way an edge is refused (D28). -/
theorem edge_eq_refused {level : Bool} {d : Nat} {s : State} {r : Refusal} (h : edge level d s = .refused r) :
    s.armed = true ∧ s.coherent = false ∧ r = .illFormedState := by
  unfold edge at h
  cases ha : s.armed <;> cases hc : s.coherent <;> simp [ha, hc] at h
  exact ⟨rfl, rfl, h.symm⟩

/-- An edge never faults. -/
theorem edge_ne_fault (level : Bool) (d : Nat) (s : State) (r : Fault) : edge level d s ≠ .fault r := by cases r

theorem edge_of_unarmed (level : Bool) (d : Nat) {s : State} (h : s.armed = false) : edge level d s = .next s := by
  simp [edge, h]

theorem edge_of_coherent (level : Bool) (d : Nat) {s : State} (ha : s.armed = true) (hc : s.coherent = true) :
    edge level d s = .next (advance level d s) := by
  simp [edge, ha, hc]

section fields
variable (level : Bool) (d : Nat) (s : State)

/-- Closes a fact that holds in every case of `advance`. -/
theorem advance_preserves {α : Type} (f : State → α)
    (he : ∀ p (t : State), f (enter p t) = f t) (hc : ∀ t, f (clearFrame t) = f t)
    (hs : ∀ b (t : State), f (storeBit b t) = f t) (hp : ∀ t, f (publish t) = f t) :
    f (advance level d s) = f s := by
  rcases advance_cases level d s with ⟨-, -, -, h⟩ | ⟨-, -, -, h⟩ | ⟨-, -, -, h⟩ | ⟨b, -, -, -, h⟩ | h
  · rw [h, he, hc]
  · rw [h, he]
  · rw [h, he]
  · rw [h]
    unfold finishBit
    split <;> simp only [he, hp, hs]
  · rw [h]; exact he _ _

@[simp] theorem advance_armed : (advance level d s).armed = s.armed :=
  advance_preserves level d s State.armed (fun _ _ => rfl) (fun _ => rfl) (fun _ _ => rfl) fun _ => rfl
@[simp] theorem advance_durCount : (advance level d s).durCount = s.durCount :=
  advance_preserves level d s State.durCount (fun _ _ => rfl) (fun _ => rfl) (fun _ _ => rfl) fun _ => rfl
@[simp] theorem advance_build : (advance level d s).build = s.build :=
  advance_preserves level d s State.build (fun _ _ => rfl) (fun _ => rfl) (fun _ _ => rfl) fun _ => rfl
@[simp] theorem advance_inputs : (advance level d s).inputs = s.inputs :=
  advance_preserves level d s State.inputs (fun _ _ => rfl) (fun _ => rfl) (fun _ _ => rfl) fun _ => rfl
@[simp] theorem advance_outputs : (advance level d s).outputs = s.outputs :=
  advance_preserves level d s State.outputs (fun _ _ => rfl) (fun _ => rfl) (fun _ _ => rfl) fun _ => rfl
@[simp] theorem advance_draws : (advance level d s).draws = s.draws :=
  advance_preserves level d s State.draws (fun _ _ => rfl) (fun _ => rfl) (fun _ _ => rfl) fun _ => rfl

end fields

/-- `advance` reads and writes the decoder's registers only, so it commutes with the front end and the queue. -/
theorem advance_withInputs (level : Bool) (d : Nat) (rest : List Input) (s : State) :
    advance level d (withInputs rest s) = withInputs rest (advance level d s) := by
  unfold advance
  simp only [withInputs_decoderState]
  cases s.decoderState with
  | awaitingHeaderMark =>
    simp only [edgeAwaitingHeaderMark, withInputs_build]
    cases level && accepts s.build .headerMark d <;> rfl
  | awaitingHeaderSpace =>
    simp only [edgeAwaitingHeaderSpace, withInputs_build]
    cases !level && accepts s.build .headerSpace d <;> rfl
  | awaitingBitMark =>
    simp only [edgeAwaitingBitMark, withInputs_build]
    cases level && accepts s.build .bitMark d <;> rfl
  | awaitingBitSpace =>
    simp only [edgeAwaitingBitSpace, withInputs_build]
    cases level with
    | true => rfl
    | false =>
      cases spaceBit s.build d with
      | none => rfl
      | some b =>
        simp only [cond_false, finishBit, storeBit_bitCounter, withInputs_bitCounter]
        by_cases hc : s.bitCounter + 1#6 = 32#6
        · simp only [hc, if_true]; rfl
        · simp only [hc, if_false]; rfl

end Sys2Proof.Machine
end

