-- ==== Sys2Proof/Laws/PerInstr.lean ====
section
/-! SUPPORT. Facts about each instruction as syntax, one lemma for each constructor. -/

namespace Sys2Proof.Laws.KindField

/-- The encoded word of an instruction carries the instruction's kind (R41), at every duration width. -/
def Statement (i : Instr) : Prop := ∀ n, kindOf n (encodeAt n i) = kindCode i

theorem fall (d : Nat) : Statement (.fall d) := fun n => kindOf_append n _ _
theorem rise (d : Nat) : Statement (.rise d) := fun n => kindOf_append n _ _
theorem init : Statement .init := fun n => kindOf_append n _ _
theorem clear : Statement .clear := fun n => kindOf_append n _ _
theorem read : Statement .read := fun n => kindOf_append n _ _

end Sys2Proof.Laws.KindField
end

