-- ==== Sys2Proof/Laws/Step.lean ====
section
/-! SUPPORT. What `exec`, `perform`, `step` and a run can answer, said once. -/

namespace Sys2Proof.Machine

/-! `exec`, arm by arm. -/

theorem exec_fall (d : Nat) (s : State) : exec (.fall d) s = edge false d s := rfl
theorem exec_rise (d : Nat) (s : State) : exec (.rise d) s = edge true d s := rfl
theorem exec_init (s : State) : exec .init s = .next (initDecoder s) := rfl
theorem exec_clear (s : State) : exec .clear s = .next (clearReady s) := rfl
theorem exec_read (s : State) :
    exec .read s = .next (bif s.armed then emit s.port s else advanceDraws (emit (unarmedPort s.draws) s)) := rfl

/-- Everything an event can do when it goes on. -/
theorem exec_cases {i : Instr} {s t : State} (h : exec i s = .next t) :
    (i.isEdge = true ∧ s.armed = false ∧ t = s)
    ∨ (∃ level d, i = (if level then .rise d else .fall d) ∧ s.armed = true ∧ s.coherent = true
        ∧ t = advance level d s)
    ∨ (i = .init ∧ t = initDecoder s)
    ∨ (i = .clear ∧ t = clearReady s)
    ∨ (i = .read ∧ s.armed = true ∧ t = emit s.port s)
    ∨ (i = .read ∧ s.armed = false ∧ t = advanceDraws (emit (unarmedPort s.draws) s)) := by
  cases i with
  | fall d =>
    rw [exec_fall, edge_eq_next] at h
    rcases h with ⟨ha, rfl⟩ | ⟨ha, hc, rfl⟩
    · exact .inl ⟨rfl, ha, rfl⟩
    · exact .inr (.inl ⟨false, d, rfl, ha, hc, rfl⟩)
  | rise d =>
    rw [exec_rise, edge_eq_next] at h
    rcases h with ⟨ha, rfl⟩ | ⟨ha, hc, rfl⟩
    · exact .inl ⟨rfl, ha, rfl⟩
    · exact .inr (.inl ⟨true, d, rfl, ha, hc, rfl⟩)
  | init => cases h; exact .inr (.inr (.inl ⟨rfl, rfl⟩))
  | clear => cases h; exact .inr (.inr (.inr (.inl ⟨rfl, rfl⟩)))
  | read =>
    cases ha : s.armed <;> simp [exec_read, ha] at h <;> subst h
    · exact .inr (.inr (.inr (.inr (.inr ⟨rfl, rfl, rfl⟩))))
    · exact .inr (.inr (.inr (.inr (.inl ⟨rfl, rfl, rfl⟩))))

/-- The one way an event is refused: an edge in an armed, ill-formed state (D28). -/
theorem exec_eq_refused {i : Instr} {s : State} {r : Refusal} (h : exec i s = .refused r) :
    i.isEdge = true ∧ s.armed = true ∧ s.coherent = false ∧ r = .illFormedState := by
  cases i with
  | fall d => exact ⟨rfl, edge_eq_refused h⟩
  | rise d => exact ⟨rfl, edge_eq_refused h⟩
  | init => cases h
  | clear => cases h
  | read => cases h

/-! Events one after the other. -/

@[simp] theorem execAll_nil (s : State) : execAll [] s = .next s := rfl

theorem execAll_cons_of_next {i : Instr} {is : List Instr} {s t : State} (h : exec i s = .next t) :
    execAll (i :: is) s = execAll is t := by
  simp [execAll, h]

theorem execAll_append {is js : List Instr} {s t : State} (h : execAll is s = .next t) :
    execAll (is ++ js) s = execAll js t := by
  induction is generalizing s with
  | nil => cases h; rfl
  | cons i is ih =>
    cases hu : exec i s with
    | next u =>
      rw [execAll_cons_of_next hu] at h
      rw [List.cons_append, execAll_cons_of_next hu]
      exact ih h
    | fault r => cases r
    | refused r => simp [execAll, hu] at h

/-- The two events of one clock are performed as a list of one or two of them (R106). -/
theorem serialize_cases (i j : Instr) :
    serialize i j = [.init] ∧ (i = .init ∨ j = .init)
    ∨ (∃ d, i = .fall d ∧ j = .clear ∧ serialize i j = [.clear, .fall d])
    ∨ serialize i j = [i, j] := by
  cases i <;> cases j <;> simp [serialize]

/-! `step`. -/

theorem step_nil {s : State} (h : s.inputs = []) : step s = .next s := by simp [step, h]

theorem step_cons {s : State} {x : Input} {rest : List Input} (h : s.inputs = x :: rest) :
    step s = perform x (withInputs rest s) := by simp [step, h]

theorem deliver_of_event {w : Nat} {i : Instr} {s : State} (h : decodePort s.build.durW w = .event i) :
    deliver w s = exec i s := by simp [deliver, h]

theorem deliver_of_reserved {w : Nat} {k : KindCode} {s : State} (h : decodePort s.build.durW w = .reserved k) :
    deliver w s = .refused (.reservedKind k) := by simp [deliver, h]

theorem deliverBoth_of_events {w v : Nat} {i j : Instr} {s : State} (hw : decodePort s.build.durW w = .event i)
    (hv : decodePort s.build.durW v = .event j) : deliverBoth w v s = execAll (serialize i j) s := by simp [deliverBoth, hw, hv]

/-- Everything a step can do when it goes on. -/
theorem step_cases {s t : State} (h : step s = .next t) :
    (s.inputs = [] ∧ t = s)
    ∨ (∃ rest w i, s.inputs = .event w :: rest ∧ decodePort s.build.durW w = .event i ∧ exec i (withInputs rest s) = .next t)
    ∨ (∃ rest w v i j, s.inputs = .sameClock w v :: rest ∧ decodePort s.build.durW w = .event i
        ∧ decodePort s.build.durW v = .event j
        ∧ execAll (serialize i j) (withInputs rest s) = .next t)
    ∨ (∃ rest, s.inputs = .reset :: rest ∧ t = initDecoder (withInputs rest s))
    ∨ (∃ rest, s.inputs = .tick :: rest ∧ t = tick (withInputs rest s))
    ∨ (∃ rest level, s.inputs = .lineTransition level :: rest ∧ lineTransition level (withInputs rest s) = .next t)
    ∨ (∃ rest, s.inputs = .powerOn :: rest ∧ t = powerOn (withInputs rest s)) := by
  cases hx : s.inputs with
  | nil => rw [step_nil hx] at h; cases h; exact .inl ⟨rfl, rfl⟩
  | cons x rest =>
    rw [step_cons hx] at h
    right
    cases x with
    | event w =>
      left
      cases hd : decodePort s.build.durW w with
      | event i => exact ⟨rest, w, i, rfl, hd, by simpa [perform, deliver, hd] using h⟩
      | reserved k => simp [perform, deliver, hd] at h
    | sameClock w v =>
      right; left
      cases hw : decodePort s.build.durW w with
      | event i =>
        cases hv : decodePort s.build.durW v with
        | event j => exact ⟨rest, w, v, i, j, rfl, hw, hv, by simpa [perform, deliverBoth, hw, hv] using h⟩
        | reserved k => simp [perform, deliverBoth, hw, hv] at h
      | reserved k => simp [perform, deliverBoth, hw] at h
    | reset => cases h; exact .inr (.inr (.inl ⟨rest, rfl, rfl⟩))
    | tick => cases h; exact .inr (.inr (.inr (.inl ⟨rest, rfl, rfl⟩)))
    | lineTransition level => exact .inr (.inr (.inr (.inr (.inl ⟨rest, level, rfl, h⟩))))
    | powerOn => cases h; exact .inr (.inr (.inr (.inr (.inr ⟨rest, rfl, rfl⟩))))

/-- A line transition that goes on: nothing before INIT, else the edge, with DurCount captured and cleared (R110). -/
theorem lineTransition_cases {level : Bool} {s t : State} (h : lineTransition level s = .next t) :
    (s.armed = false ∧ t = s)
    ∨ (s.armed = true ∧ s.coherent = true ∧ t = advance level s.durCount (setDurCount 0 s)) := by
  cases ha : s.armed with
  | false => simp [lineTransition, ha] at h; exact .inl ⟨rfl, h.symm⟩
  | true =>
    have h' : edge level s.durCount (setDurCount 0 s) = .next t := by simpa [lineTransition, ha] using h
    rw [edge_eq_next] at h'
    simpa [ha] using h'

@[simp] theorem tick_of_unarmed {s : State} (h : s.armed = false) : tick s = s := by simp [tick, h]

theorem tick_of_armed {s : State} (h : s.armed = true) :
    tick s = setDurCount (nextCount s.build s.durCount) s := by simp [tick, h]

/-! Runs. -/

@[simp] theorem run_zero (s : State) : run 0 s = .next s := rfl

theorem run_succ_of_next {s t : State} (n : Nat) (h : step s = .next t) : run (n + 1) s = run n t := by
  simp [run, h]

theorem run_succ_of_refused {s : State} {r : Refusal} (n : Nat) (h : step s = .refused r) :
    run (n + 1) s = .refused r := by
  simp [run, h]

/-- A run that goes on, taken apart at its first step. -/
theorem run_succ_eq_next {s t : State} {n : Nat} (h : run (n + 1) s = .next t) :
    ∃ u, step s = .next u ∧ run n u = .next t := by
  cases hs : step s with
  | next u => exact ⟨u, rfl, by rw [← run_succ_of_next n hs]; exact h⟩
  | fault r => cases r
  | refused r => rw [run_succ_of_refused n hs] at h; cases h

/-- The host's run of this machine is `run`. -/
theorem core_run_eq_run (n : Nat) (s : State) : Host.Core.run Sys2Proof.core n s = run n s := by
  induction n generalizing s with
  | zero => rfl
  | succ n ih =>
    have hstep : Sys2Proof.core.step s = step s := rfl
    simp only [Host.Core.run, hstep]
    cases hs : step s with
    | next t => rw [run_succ_of_next n hs]; exact ih t
    | fault r => cases r
    | refused r => rw [run_succ_of_refused n hs]; rfl

/-! Every event reads and leaves the queue alone, so it commutes with presenting other inputs. -/

/-- What a step's answer becomes when the state is mapped. -/
def mapNext (f : State → State) : Host.Outcome State Fault Refusal → Host.Outcome State Fault Refusal
  | .next s => .next (f s)
  | .fault r => .fault r
  | .refused r => .refused r

theorem exec_withInputs (i : Instr) (rest : List Input) (s : State) :
    exec i (withInputs rest s) = mapNext (withInputs rest) (exec i s) := by
  cases i with
  | fall d =>
    simp only [exec_fall, edge, withInputs_armed, coherent_withInputs, advance_withInputs]
    cases s.armed <;> cases s.coherent <;> rfl
  | rise d =>
    simp only [exec_rise, edge, withInputs_armed, coherent_withInputs, advance_withInputs]
    cases s.armed <;> cases s.coherent <;> rfl
  | init => rfl
  | clear => rfl
  | read =>
    simp only [exec_read, withInputs_armed]
    cases s.armed <;> rfl

/-- No event takes or adds an input. -/
theorem exec_inputs {i : Instr} {s t : State} (h : exec i s = .next t) : t.inputs = s.inputs := by
  rcases exec_cases h with ⟨-, -, rfl⟩ | ⟨l, d, -, -, -, rfl⟩ | ⟨-, rfl⟩ | ⟨-, rfl⟩ | ⟨-, -, rfl⟩ | ⟨-, -, rfl⟩ <;> simp

/-- No event writes a build parameter (R19). -/
theorem exec_build {i : Instr} {s t : State} (h : exec i s = .next t) : t.build = s.build := by
  rcases exec_cases h with ⟨-, -, rfl⟩ | ⟨l, d, -, -, -, rfl⟩ | ⟨-, rfl⟩ | ⟨-, rfl⟩ | ⟨-, -, rfl⟩ | ⟨-, -, rfl⟩ <;> simp

end Sys2Proof.Machine
end

