-- ==== Sys2Proof/Laws/Run.lean ====
section
/-! SUPPORT. A run over a queue of events is the events one after the other, and what the front end does over a run of
ticks: the induction of a run, once. -/

namespace Sys2Proof.Machine

@[simp] theorem withEvents_nil (s : State) : s.withEvents [] = s := rfl

theorem withEvents_cons_inputs (s : State) (i : Instr) (es : List Instr) :
    (s.withEvents (i :: es)).inputs = .event (encodePort s.build.durW i) :: (s.withEvents es).inputs := rfl

/-- Presenting events before a state's inputs commutes with an event that reads no input. -/
theorem withInputs_withEvents (s : State) (i : Instr) (es : List Instr) :
    withInputs (s.withEvents es).inputs (s.withEvents (i :: es)) = withInputs (s.withEvents es).inputs s := rfl

/-- A run over presented events performs them in order (R34), where each one's word decodes to it. -/
theorem run_withEvents {es : List Instr} {s : State}
    (hd : ∀ i ∈ es, decodeAt s.build.durW (encodeAt s.build.durW i) = .event i) :
    run es.length (s.withEvents es) = execAll es s := by
  induction es generalizing s with
  | nil => rfl
  | cons i es ih =>
    have hstep : step (s.withEvents (i :: es)) = mapNext (withInputs (s.withEvents es).inputs) (exec i s) := by
      rw [step_cons (withEvents_cons_inputs s i es)]
      show deliver _ _ = _
      rw [deliver_of_event (s := withInputs (s.withEvents es).inputs (s.withEvents (i :: es)))
        ((decodePort_encodePort s.build.durW i).trans (hd i (by simp))), withInputs_withEvents, exec_withInputs]
    rw [List.length_cons]
    cases hx : exec i s with
    | next t =>
      rw [hx] at hstep
      have hin : withInputs (s.withEvents es).inputs t = t.withEvents es := by
        show _ = withInputs _ t
        rw [State.withEvents, exec_inputs hx, exec_build hx]
        rfl
      rw [run_succ_of_next _ (show step _ = .next (t.withEvents es) from by rw [hstep, mapNext, hin]),
        execAll_cons_of_next hx]
      exact ih fun j hj => by rw [exec_build hx]; exact hd j (by simp [hj])
    | fault r => cases r
    | refused r =>
      rw [hx] at hstep
      rw [run_succ_of_refused _ hstep]
      simp only [execAll, hx]

/-- DurCount after `m` ticks. -/
def countAfter (b : Build) : Nat → Nat → Nat
  | 0, c => c
  | m + 1, c => countAfter b m (nextCount b c)

/-- Ticks at the head of the queue are counted, and nothing else happens (R109). -/
theorem run_ticks (m k : Nat) {s : State} {rest : List Input} (ha : s.armed = true)
    (hi : s.inputs = List.replicate m .tick ++ rest) :
    run (m + k) s =
      run k
        (withInputs rest (setDurCount (countAfter s.build m s.durCount) s)) := by
  induction m generalizing s with
  | zero =>
    have : withInputs rest s = s := by
      have : rest = s.inputs := by simpa using hi.symm
      rw [this]; rfl
    rw [Nat.zero_add]
    conv_lhs => rw [← this]
    rfl
  | succ m ih =>
    have hs : step s = .next (setDurCount (nextCount s.build s.durCount)
        (withInputs (List.replicate m .tick ++ rest) s)) := by
      rw [step_cons (show s.inputs = .tick :: (List.replicate m .tick ++ rest) by simpa [List.replicate_succ] using hi)]
      show Host.Outcome.next (tick _) = _
      rw [tick_of_armed (by simpa using ha)]
      rfl
    rw [show m + 1 + k = m + k + 1 by omega, run_succ_of_next _ hs]
    exact ih (s := setDurCount (nextCount s.build s.durCount)
      (withInputs (List.replicate m .tick ++ rest) s)) ha rfl

/-- A tick keeps DurCount within its DUR_W bits (R17). -/
theorem nextCount_lt (b : Build) (c : Nat) : nextCount b c < 2 ^ b.durW := by
  have : 0 < 2 ^ b.durW := Nat.two_pow_pos _
  unfold nextCount
  split
  · omega
  · cases b.durOverflow
    · exact this
    · show 2 ^ b.durW - 1 < _; omega

end Sys2Proof.Machine
end

