-- ==== Sys2Proof/Tests/Slice0.lean ====
section
/-! SUPPORT. The model's own tests. Expected values are those of spec/95_test_vectors.md (the vector is named at each
test) or of the rule named; then, for each statement with hypotheses, a concrete witness that meets them. -/

namespace Sys2Proof.Tests

open Sys2Proof.Machine

/-- An armed state with the default windows, the overflow policy `wrap`, and nothing queued. -/
def st (p : DecoderState) (rf : Frame) (bc : BitCount) (cmd : Command) (rdy : Bool) : State :=
  { decoderState := p, rawFrame := rf, bitCounter := bc, decodedCommand := cmd, readyFlag := rdy, armed := true
    durCount := 0, build := Build.default .wrap, inputs := [], outputs := [], draws := 0 }

/-- The next state, where there is one. -/
def nextOf : Host.Outcome State Fault Refusal → Option State
  | .next s => some s
  | .fault _ => none
  | .refused _ => none

/-- The refusal, where there is one. -/
def refusalOf : Host.Outcome State Fault Refusal → Option Refusal
  | .next _ => none
  | .fault _ => none
  | .refused r => some r

/-! ## Well-formedness refuses ill-formed terms (R5, R42) -/

theorem test_fall_too_long_is_ill_formed : (Instr.fall 65536).wellFormedAt 16 = false := by decide
theorem test_rise_too_long_is_ill_formed : (Instr.rise 65536).wellFormedAt 16 = false := by decide
theorem test_longest_edge_is_well_formed : (Instr.rise 65535).wellFormedAt 16 = true := by decide
theorem test_build_nomHM_too_large : ({ Build.default .wrap with nomHM := 65536 }).wellFormed = false := by decide
theorem test_build_nomHS_too_large : ({ Build.default .wrap with nomHS := 65536 }).wellFormed = false := by decide
theorem test_build_nomBM_too_large : ({ Build.default .wrap with nomBM := 65536 }).wellFormed = false := by decide
theorem test_build_nomB0_too_large : ({ Build.default .wrap with nomB0 := 65536 }).wellFormed = false := by decide
theorem test_build_nomB1_too_large : ({ Build.default .wrap with nomB1 := 65536 }).wellFormed = false := by decide
theorem test_default_build_is_well_formed : (Build.default .saturate).wellFormed = true := by decide

/-! ## Decoding: words written out bit by bit from R40 and R41 (V-X1 to V-X17) -/

/-- RISE 9000: kind 001, payload 0010001100101000. -/
theorem test_decode_rise : decode 0b0010010001100101000#19 = .event (.rise 9000) := by decide
/-- FALL 1690: kind 000, payload 0000011010011010. -/
theorem test_decode_fall : decode 0b0000000011010011010#19 = .event (.fall 1690) := by decide
/-- INIT, payload all ones: kind 010. -/
theorem test_decode_init : decode 0b0101111111111111111#19 = .event .init := by decide
/-- CLEAR: kind 011. -/
theorem test_decode_clear : decode 0b0110000000000001111#19 = .event .clear := by decide
/-- READ: kind 100. -/
theorem test_decode_read : decode 0b1000000000000000000#19 = .event .read := by decide
/-- Reserved kinds 101, 110, 111. -/
theorem test_decode_reserved :
    decode 0b1011111111111111111#19 = .reserved 0b101#3 ∧ decode 0b1100000000000000000#19 = .reserved 0b110#3
    ∧ decode 0b1111010101111001101#19 = .reserved 0b111#3 := by decide
/-- The encodings of R46. -/
theorem test_encode :
    encode (.rise 9000) = 0x12328#19 ∧ encode (.fall 4500) = 0x01194#19 ∧ encode .init = 0x20000#19
    ∧ encode .clear = 0x30000#19 ∧ encode .read = 0x40000#19 := by decide
theorem test_decodeTableWord :
    decodeTableWord 24 0x12328 = some (.rise 9000) ∧ decodeTableWord 24 0x50000 = none
    ∧ decodeTableWord 24 0x80000 = none := by decide
/-- R46: the text of an event. -/
theorem test_text : (Instr.rise 9000).text = "RISE 9000" := by decide
/-- R47: `BIT 1` is two events and `FRAME v` is 66. -/
theorem test_expand :
    PseudoEvent.expand (Build.default .wrap) (.bit true) = [.rise 560, .fall 1690]
    ∧ (PseudoEvent.expand (Build.default .wrap) (.frame 0x00FF00FF#32)).length = 66 := by decide

/-- R40: in a build of duration width 14 an event word has 17 bits. -/
theorem test_decode_other_width : decodePort 14 (1 * 2 ^ 14 + 9000) = .event (.rise 9000) := by decide

/-! ## The comparator (V-C) -/

theorem test_classify_bounds :
    classify 6000 9000 = false ∧ classify 6001 9000 = true ∧ classify 11999 9000 = true ∧ classify 12000 9000 = false
    ∧ classify 374 560 = false ∧ classify 375 560 = true ∧ classify 745 560 = true ∧ classify 746 560 = false := by
  decide
/-- V-C23: the window of 3 is 3 alone. -/
theorem test_classify_small :
    classify 2 3 = false ∧ classify 3 3 = true ∧ classify 4 3 = false ∧ classify 2 2 = false := by decide

/-! ## One step of each event -/

/-- V-E1. -/
theorem test_rise_starts_a_frame :
    nextOf (exec (.rise 9000) (st .awaitingHeaderMark 0xDEADBEEF#32 32#6 0xAD#8 true))
      = some (st .awaitingHeaderSpace 0#32 0#6 0xAD#8 true) := by decide
/-- V-E12. -/
theorem test_rise_violation_keeps_the_frame :
    nextOf (exec (.rise 374) (st .awaitingBitMark 0x5#32 3#6 0x00#8 false))
      = some (st .awaitingHeaderMark 0x5#32 3#6 0x00#8 false) := by decide
/-- V-E21. -/
theorem test_fall_completes_over_an_unread_command :
    nextOf (exec (.fall 1690) (st .awaitingBitSpace 0x6F10FF00#32 31#6 0x45#8 true))
      = some (st .awaitingHeaderMark 0xEF10FF00#32 32#6 0x10#8 true) := by decide
/-- V-E16. -/
theorem test_fall_stores_a_one :
    nextOf (exec (.fall 1690) (st .awaitingBitSpace 0x15#32 5#6 0x00#8 false))
      = some (st .awaitingBitMark 0x35#32 6#6 0x00#8 false) := by decide
/-- V-I2. -/
theorem test_init_mid_frame :
    nextOf (exec .init (st .awaitingBitSpace 0x15#32 5#6 0x45#8 true))
      = some (st .awaitingHeaderMark 0#32 0#6 0x00#8 false) := by decide
/-- V-K2. -/
theorem test_clear_mid_frame :
    nextOf (exec .clear (st .awaitingBitSpace 0x5#32 3#6 0xFF#8 true))
      = some (st .awaitingBitSpace 0x5#32 3#6 0xFF#8 false) := by decide
/-- V-R1. -/
theorem test_read :
    nextOf (exec .read (st .awaitingHeaderMark 0x00FF00FF#32 32#6 0xFF#8 true))
      = some { st .awaitingHeaderMark 0x00FF00FF#32 32#6 0xFF#8 true with outputs := [⟨true, 0xFF#8⟩] } := by decide
/-- D28: a counter of 32 in ABS is refused. -/
theorem test_ill_formed_state_is_refused :
    refusalOf (exec (.fall 560) (st .awaitingBitSpace 0#32 32#6 0x00#8 false)) = some .illFormedState := by decide

/-! ## The front end, the queue and the interface -/

/-- V-D2: one tick at 65535. -/
theorem test_tick_overflow :
    (tick { st .awaitingHeaderMark 0#32 0#6 0#8 false with durCount := 65535 }).durCount = 0
    ∧ (tick { st .awaitingHeaderMark 0#32 0#6 0#8 false with
        durCount := 65535, build := Build.default .saturate }).durCount = 65535 := by decide
/-- V-D1: a rising transition after 9000 ticks. -/
theorem test_line_transition :
    nextOf (step { st .awaitingHeaderMark 0#32 0#6 0#8 false with
      durCount := 9000, inputs := [.lineTransition true, .tick] })
      = some { st .awaitingHeaderSpace 0#32 0#6 0#8 false with inputs := [.tick] } := by decide
/-- R106 item 6: the set of the completion wins. -/
theorem test_same_clock :
    (nextOf (step { st .awaitingBitSpace 0x6F10FF00#32 31#6 0x45#8 true with
      inputs := [.sameClock 0x0069A 0x30000] })).map (fun s => (s.readyFlag, s.decodedCommand))
      = some (true, 0x10#8) := by decide
/-- The first word after reset runs (R61 example, INIT done). -/
theorem test_fetch_after_reset :
    (nextOf (step (State.reset.withFetchWord 24 0x12328))).map (fun s => s.decoderState)
      = some .awaitingHeaderSpace := by decide
/-- R84, R112: every event has exactly one agent that may issue it. -/
theorem test_one_agent_for_each_event (i : Instr) :
    (Agent.edgeSource.mayIssue i = i.isEdge) ∧ (Agent.host.mayIssue i = decide (i = .init))
    ∧ (Agent.consumer.mayIssue i = (decide (i = .read) || decide (i = .clear))) := by
  cases i <;> simp [Agent.mayIssue, Instr.isEdge]

/-! ## Witnesses: a state and operands that meet a statement's hypotheses -/

theorem witness_DecodeOfEncodeIsTheEvent :
    (Instr.fall 65535).wellFormedAt 16 = true ∧ (Instr.rise 255).wellFormedAt 8 = true
    ∧ Instr.init.wellFormedAt 0 = true := by decide
theorem witness_EncodeOfDecodeIsTheWord :
    decodeAt 16 0x1FFFF#19 = .event (.rise 65535) ∧ decodeAt 16 0x2FFFF#19 = .event .init := by decide
theorem witness_PayloadOfANonEdgeIsIgnored :
    0xFFFF < 2 ^ (st .awaitingHeaderMark 0#32 0#6 0#8 false).build.durW ∧ Instr.read.isEdge = false := by decide
theorem witness_ReservedKindEndsTheRun :
    ∃ s u v : State, s.inputs = .event (5 * 2 ^ s.build.durW + 0xFFFF) :: [] ∧ 0xFFFF < 2 ^ s.build.durW
      ∧ u.inputs = .event (6 * 2 ^ u.build.durW + 0) :: [] ∧ v.inputs = .event (7 * 2 ^ v.build.durW + 0xABCD) :: [] :=
  ⟨{ st .awaitingHeaderMark 0#32 0#6 0#8 false with inputs := [.event 0x5FFFF] },
    { st .awaitingHeaderMark 0#32 0#6 0#8 false with inputs := [.event 0x60000] },
    { st .awaitingHeaderMark 0#32 0#6 0#8 false with inputs := [.event 0x7ABCD] }, by decide⟩
theorem witness_StepRunsTheDecodedEvent :
    ∃ (s : State) (w : EventWordAt s.build.durW), s.inputs = [.event w.toNat]
      ∧ decodeAt s.build.durW w = .event (.rise 9000) :=
  ⟨{ st .awaitingHeaderMark 0#32 0#6 0#8 false with inputs := [.event 0x12328] }, 0x12328#19, by decide⟩
theorem witness_NoInputHoldsTheState : (st .awaitingBitMark 0x5#32 3#6 0#8 false).inputs = [] := by decide
theorem witness_ResetInputIsInit :
    ({ st .awaitingBitMark 0x5#32 3#6 0#8 false with inputs := [.reset] }).inputs = .reset :: [] := by decide
theorem witness_InitAfterPowerOnGivesTheResetRegisters :
    ({ st .awaitingBitMark 0x5#32 3#6 0#8 false with inputs := [.powerOn] }).inputs = .powerOn :: [] := by decide
theorem witness_BeforeInitEdgesAndTicksChangeNothing :
    ∃ s : State, s.armed = false ∧ s.inputs = .tick :: [.lineTransition true] :=
  ⟨{ st .awaitingBitMark 0x5#32 3#6 0#8 false with armed := false, inputs := [.tick, .lineTransition true] }, by decide⟩
theorem witness_BeforeInitEdgesAndTicksChangeNothing_transition :
    ∃ s : State, s.armed = false ∧ s.inputs = .lineTransition false :: [] :=
  ⟨{ st .awaitingBitMark 0x5#32 3#6 0#8 false with armed := false, inputs := [.lineTransition false] }, by decide⟩
theorem witness_DefaultWindowsAcceptTheTable : (Build.default .wrap).HasDefaultWindows := by decide
theorem witness_EdgesCompleteInEveryCoherentState :
    ∃ s : State, s.armed = true ∧ s.bitCounter.toNat ≤ 32
      ∧ (s.decoderState ≠ .awaitingHeaderMark → s.bitCounter.toNat < 32) :=
  ⟨st .awaitingHeaderMark 0x00FF00FF#32 32#6 0xFF#8 true, by decide⟩
theorem witness_HeaderMarkStartsAFrame :
    ∃ s : State, s.armed = true ∧ s.coherent = true ∧ s.decoderState = .awaitingHeaderMark
      ∧ classify 6001 s.build.nomHM = true ∧ classify 11999 s.build.nomHM = true
      ∧ classify 6000 s.build.nomHM = false ∧ classify 12000 s.build.nomHM = false :=
  ⟨st .awaitingHeaderMark 0x00FF00FF#32 32#6 0xFF#8 true, by decide⟩
theorem witness_FallingEdgeIsIgnoredWhileAwaitingAHeader :
    ∃ s : State, s.armed = true ∧ s.coherent = true ∧ s.decoderState = .awaitingHeaderMark :=
  ⟨st .awaitingHeaderMark 0x5#32 3#6 0x00#8 false, by decide⟩
theorem witness_HeaderSpaceEntersTheBits :
    ∃ s : State, s.armed = true ∧ s.coherent = true ∧ s.decoderState = .awaitingHeaderSpace
      ∧ classify 3001 s.build.nomHS = true ∧ classify 3000 s.build.nomHS = false :=
  ⟨st .awaitingHeaderSpace 0#32 0#6 0x00#8 false, by decide⟩
theorem witness_BitMarkEntersTheSpace :
    ∃ s : State, s.armed = true ∧ s.coherent = true ∧ s.decoderState = .awaitingBitMark
      ∧ classify 745 s.build.nomBM = true ∧ classify 746 s.build.nomBM = false :=
  ⟨st .awaitingBitMark 0x5#32 31#6 0x00#8 false, by decide⟩
theorem witness_WrongPolarityReturnsToTheStart :
    ∃ s u v : State, s.armed = true ∧ s.coherent = true ∧ s.decoderState = .awaitingHeaderSpace
      ∧ u.armed = true ∧ u.coherent = true ∧ u.decoderState = .awaitingBitMark
      ∧ v.armed = true ∧ v.coherent = true ∧ v.decoderState = .awaitingBitSpace :=
  ⟨st .awaitingHeaderSpace 0#32 0#6 0#8 false, st .awaitingBitMark 0x5#32 3#6 0#8 false,
    st .awaitingBitSpace 0x5#32 31#6 0#8 false, by decide⟩
theorem witness_BitSpaceStoresItsBit :
    ∃ s : State, s.armed = true ∧ s.decoderState = .awaitingBitSpace ∧ s.bitCounter.toNat < 32
      ∧ classify 375 s.build.nomB0 = true ∧ classify 745 s.build.nomB0 = true
      ∧ (classify 1128 s.build.nomB0 = false ∧ classify 1128 s.build.nomB1 = true)
      ∧ (classify 2252 s.build.nomB0 = false ∧ classify 2252 s.build.nomB1 = true)
      ∧ (classify 746 s.build.nomB0 = false ∧ classify 746 s.build.nomB1 = false)
      ∧ (classify 1127 s.build.nomB0 = false ∧ classify 1127 s.build.nomB1 = false) :=
  ⟨st .awaitingBitSpace 0x6F10FF00#32 31#6 0x45#8 true, by decide⟩
theorem witness_BitSpaceStoresItsBit_first_bit :
    (st .awaitingBitSpace 0#32 0#6 0#8 false).bitCounter.toNat < 32 := by decide
theorem witness_EveryOtherEdgeOnlyResetsState :
    ∃ s t : State, (Instr.fall 1000).isEdge = true ∧ nextOf (exec (.fall 1000) s) = some t ∧ s.armed = true :=
  ⟨st .awaitingBitSpace 0x5#32 3#6 0#8 false, st .awaitingHeaderMark 0x5#32 3#6 0#8 false, by decide⟩
theorem witness_EdgesLeaveTheRestUnchanged :
    ∃ s t : State, nextOf (exec (.rise 560) s) = some t :=
  ⟨st .awaitingBitMark 0x5#32 3#6 0#8 false, st .awaitingBitSpace 0x5#32 3#6 0#8 false, by decide⟩
theorem witness_InitWritesEveryRegister :
    ∃ s : State, 0xFFFF < 2 ^ s.build.durW ∧ s.inputs = .event (2 * 2 ^ s.build.durW + 0xFFFF) :: [] :=
  ⟨{ st .awaitingBitMark 0x5#32 3#6 0#8 true with inputs := [.event 0x2FFFF] }, by decide⟩
theorem witness_ClearWritesOnlyReadyFlag :
    ∃ s : State, s.readyFlag = false ∧ 0xF < 2 ^ s.build.durW
      ∧ s.inputs = .event (3 * 2 ^ s.build.durW + 0xF) :: [] :=
  ⟨{ st .awaitingBitMark 0x5#32 3#6 0#8 false with inputs := [.event 0x3000F] }, by decide⟩
theorem witness_ReadGivesBothPortsAndChangesNoRegister :
    ∃ s u : State, s.armed = true ∧ 0xFFFF < 2 ^ s.build.durW
      ∧ s.inputs = .event (4 * 2 ^ s.build.durW + 0xFFFF) :: [] ∧ u.armed = false :=
  ⟨{ st .awaitingBitMark 0x5#32 3#6 0#8 true with inputs := [.event 0x4FFFF] },
    { st .awaitingBitMark 0x5#32 3#6 0#8 true with armed := false }, by decide⟩
theorem witness_ReadAndClearAreIdempotent :
    ∃ s t u : State, s.armed = true ∧ nextOf (exec .read s) = some t ∧ nextOf (exec .read t) = some u :=
  ⟨st .awaitingBitMark 0x1#32 1#6 0x45#8 false,
    { st .awaitingBitMark 0x1#32 1#6 0x45#8 false with outputs := [⟨false, 0x45#8⟩] },
    { st .awaitingBitMark 0x1#32 1#6 0x45#8 false with outputs := [⟨false, 0x45#8⟩, ⟨false, 0x45#8⟩] }, by decide⟩
theorem witness_ConsumerEventsLeaveTheDecoderUnchanged :
    Agent.consumer.mayIssue .read = true ∧ Agent.consumer.mayIssue .clear = true := by decide
theorem witness_TickAdvancesTheCounter :
    ∃ s u v : State, s.inputs = .tick :: [] ∧ s.armed = true ∧ s.durCount < 2 ^ s.build.durW - 1
      ∧ u.inputs = .tick :: [] ∧ u.armed = true ∧ u.durCount = 2 ^ u.build.durW - 1 ∧ u.build.durOverflow = .wrap
      ∧ v.inputs = .tick :: [] ∧ v.armed = true ∧ v.durCount = 2 ^ v.build.durW - 1
      ∧ v.build.durOverflow = .saturate :=
  ⟨{ st .awaitingHeaderMark 0#32 0#6 0#8 false with inputs := [.tick], durCount := 65534 },
    { st .awaitingHeaderMark 0#32 0#6 0#8 false with inputs := [.tick], durCount := 65535 },
    { st .awaitingHeaderMark 0#32 0#6 0#8 false with
      inputs := [.tick], durCount := 65535, build := Build.default .saturate }, by decide⟩
theorem witness_LineTransitionIsAnEdgeWithTheCount :
    ∃ s : State, s.inputs = .lineTransition true :: [.tick] ∧ s.armed = true :=
  ⟨{ st .awaitingHeaderMark 0#32 0#6 0#8 false with inputs := [.lineTransition true, .tick] }, by decide⟩
theorem witness_IntervalIsDeliveredAsItsTicks :
    ∃ s : State, s.armed = true ∧ s.durCount < 2 ^ s.build.durW
      ∧ s.inputs = List.replicate 3 .tick ++ .lineTransition true :: []
      ∧ (s.build.durOverflow = .wrap → 1 = (s.durCount + 3) % 2 ^ s.build.durW)
      ∧ (s.build.durOverflow = .saturate → 1 = min (s.durCount + 3) (2 ^ s.build.durW - 1)) :=
  ⟨{ st .awaitingHeaderMark 0#32 0#6 0#8 false with
      durCount := 65534, inputs := [.tick, .tick, .tick, .lineTransition true] }, by decide⟩
theorem witness_IntervalIsDeliveredAsItsTicks_saturate :
    ∃ s : State, s.armed = true ∧ s.durCount < 2 ^ s.build.durW
      ∧ s.inputs = List.replicate 3 .tick ++ .lineTransition true :: []
      ∧ (s.build.durOverflow = .wrap → 65535 = (s.durCount + 3) % 2 ^ s.build.durW)
      ∧ (s.build.durOverflow = .saturate → 65535 = min (s.durCount + 3) (2 ^ s.build.durW - 1)) :=
  ⟨{ st .awaitingHeaderMark 0#32 0#6 0#8 false with
      durCount := 65534, inputs := [.tick, .tick, .tick, .lineTransition true]
      build := Build.default .saturate }, by decide⟩
theorem witness_InitWinsTheClock :
    ∃ s : State, s.inputs = .sameClock 0x20000 0x0069A :: [] ∧ decodePort s.build.durW 0x20000 = .event .init
      ∧ decodePort s.build.durW 0x0069A = .event (.fall 1690) :=
  ⟨{ st .awaitingBitSpace 0#32 31#6 0#8 false with inputs := [.sameClock 0x20000 0x0069A] }, by decide⟩
theorem witness_InitWinsTheClock_second :
    ∃ s : State, s.inputs = .sameClock 0x0069A 0x20000 :: [] :=
  ⟨{ st .awaitingBitSpace 0#32 31#6 0#8 false with inputs := [.sameClock 0x0069A 0x20000] }, by decide⟩
theorem witness_CompletionWinsOverClear :
    ∃ s : State, s.inputs = .sameClock 0x0069A 0x30000 :: [] ∧ decodePort s.build.durW 0x0069A = .event (.fall 1690)
      ∧ decodePort s.build.durW 0x30000 = .event .clear ∧ s.armed = true ∧ s.decoderState = .awaitingBitSpace
      ∧ s.bitCounter.toNat = 31 ∧ (classify 1690 s.build.nomB0 = true ∨ classify 1690 s.build.nomB1 = true) :=
  ⟨{ st .awaitingBitSpace 0#32 31#6 0#8 true with inputs := [.sameClock 0x0069A 0x30000] }, by decide⟩
theorem witness_CompletionWinsOverClear_second :
    ∃ s : State, s.inputs = .sameClock 0x30000 0x00230 :: [] ∧ decodePort s.build.durW 0x00230 = .event (.fall 560)
      ∧ classify 560 s.build.nomB0 = true :=
  ⟨{ st .awaitingBitSpace 0#32 31#6 0#8 true with inputs := [.sameClock 0x30000 0x00230] }, by decide⟩
theorem witness_OnlyACompletionRaisesReadyFlag :
    ∃ s t : State, nextOf (exec (.fall 560) s) = some t ∧ s.readyFlag = false ∧ t.readyFlag = true :=
  ⟨st .awaitingBitSpace 0x00FF00FF#32 31#6 0#8 false, st .awaitingHeaderMark 0x00FF00FF#32 32#6 0xFF#8 true, by decide⟩
theorem witness_CommandChangesOnlyWithThePublication :
    ∃ s t : State, nextOf (exec (.fall 560) s) = some t ∧ t.decodedCommand ≠ s.decodedCommand :=
  ⟨st .awaitingBitSpace 0x00FF00FF#32 31#6 0#8 false, st .awaitingHeaderMark 0x00FF00FF#32 32#6 0xFF#8 true, by decide⟩
theorem witness_ArmedIsSetByInitAndClearedByPowerOn :
    ∃ s t : State, nextOf (step s) = some t ∧ s.armed = false ∧ t.armed = true :=
  ⟨{ st .awaitingBitMark 0x5#32 3#6 0x45#8 true with armed := false, inputs := [.reset] },
    st .awaitingHeaderMark 0#32 0#6 0#8 false, by decide⟩
theorem witness_ArmedIsSetByInitAndClearedByPowerOn_off :
    ∃ s t : State, step s = .next t ∧ s.armed = true ∧ t.armed = false :=
  ⟨{ st .awaitingBitMark 0x5#32 3#6 0x45#8 true with inputs := [.powerOn] },
    powerOn (st .awaitingBitMark 0x5#32 3#6 0x45#8 true), rfl, by decide, rfl⟩
theorem witness_NoStepWritesTheBuild :
    ∃ s t : State, nextOf (step s) = some t ∧ s.inputs ≠ [] :=
  ⟨{ st .awaitingBitMark 0x5#32 3#6 0x45#8 true with inputs := [.event 0x30000] },
    st .awaitingBitMark 0x5#32 3#6 0x45#8 false, by decide⟩
theorem witness_StateMovesAlongTheProtocol :
    ∃ s t : State, nextOf (exec (.fall 4500) s) = some t ∧ t.decoderState ≠ s.decoderState :=
  ⟨st .awaitingHeaderSpace 0#32 0#6 0#8 false, st .awaitingBitMark 0#32 0#6 0#8 false, by decide⟩
theorem witness_EveryStepKeepsTheRegistersCoherent :
    ∃ s t : State, s.Inv ∧ nextOf (step s) = some t :=
  ⟨{ st .awaitingBitSpace 0x00FF00FF#32 31#6 0#8 false with inputs := [.event 0x00230] },
    st .awaitingHeaderMark 0x00FF00FF#32 32#6 0xFF#8 true, by decide⟩
theorem witness_MeaningfulInputsNeverStopTheBlock :
    ∃ s : State, s.Inv ∧ s.InputsHaveMeaning ∧ s.inputs ≠ [] :=
  ⟨{ st .awaitingBitSpace 0x5#32 3#6 0#8 false with
      inputs := [.event 0x0069A, .sameClock 0x20000 0x40000, .tick, .lineTransition true, .reset, .powerOn] },
    by decide⟩
theorem witness_AcceptedFrameIsPublished :
    ∃ s : State, s.armed = true ∧ s.coherent = true ∧ s.decoderState = .awaitingHeaderMark
      ∧ FrameAccepted s.build 6001 5999 (List.replicate 32 (745, 2252))
      ∧ ∀ i ∈ frameEvents 6001 5999 (List.replicate 32 (745, 2252)), i.wellFormedAt s.build.durW = true :=
  ⟨st .awaitingHeaderMark 0xDEADBEEF#32 32#6 0xAD#8 true, by decide⟩
theorem witness_UnreadFrameIsOverwritten :
    ∃ s : State, s.armed = true ∧ s.coherent = true ∧ s.decoderState = .awaitingHeaderMark
      ∧ FrameAccepted s.build 9000 4500 (List.replicate 32 (560, 1690))
      ∧ FrameAccepted s.build 11999 3001 (List.replicate 32 (375, 375))
      ∧ ∀ i ∈ frameEvents 9000 4500 (List.replicate 32 (560, 1690))
          ++ frameEvents 11999 3001 (List.replicate 32 (375, 375)), i.wellFormedAt s.build.durW = true :=
  ⟨st .awaitingHeaderMark 0xDEADBEEF#32 32#6 0xAD#8 true, by decide, by decide, by decide, by decide, by decide,
    List.forall_mem_append.2 ⟨by decide, by decide⟩⟩
theorem witness_NominalFramePublishesItsCommand :
    ∃ s : State, s.armed = true ∧ s.coherent = true ∧ s.decoderState = .awaitingHeaderMark
      ∧ s.build.wellFormed = true ∧ 3 ≤ s.build.nomHM ∧ 3 ≤ s.build.nomHS ∧ 3 ≤ s.build.nomBM
      ∧ 3 ≤ s.build.nomB0 ∧ 3 ≤ s.build.nomB1 ∧ classify s.build.nomB1 s.build.nomB0 = false :=
  ⟨st .awaitingHeaderMark 0#32 0#6 0#8 false, by decide⟩
theorem witness_EdgesAfterAnAbandonedFrameChangeNothing :
    ∃ s : State, s.armed = true ∧ s.coherent = true ∧ s.decoderState = .awaitingHeaderMark
      ∧ s.build.HasDefaultWindows
      ∧ ∀ i ∈ [Instr.rise 560, .fall 1690, .rise 6000, .fall 12000],
          i.isEdge = true ∧ i.wellFormedAt s.build.durW = true ∧ ¬(6001 ≤ i.duration ∧ i.duration ≤ 11999) :=
  ⟨st .awaitingHeaderMark 0x5#32 3#6 0#8 false, by decide⟩
theorem witness_NoFrameBeforeSixtySixEdges :
    ∃ s t : State, s.armed = true ∧ s.decoderState = .awaitingHeaderMark ∧ s.readyFlag = false
      ∧ (∀ x ∈ s.inputs, x ≠ .powerOn ∧ ∀ w v, x ≠ .sameClock w v) ∧ run 1 s = .next t :=
  ⟨{ st .awaitingHeaderMark 0#32 0#6 0#8 false with inputs := [.event 0x12328] },
    st .awaitingHeaderSpace 0#32 0#6 0#8 false, by decide, by decide, by decide, by simp, rfl⟩
theorem witness_ConsumerCannotDisturbTheDecoder :
    ∃ s t : State, (∀ i ∈ [Instr.rise 9000, .read, .clear], i.wellFormedAt s.build.durW = true)
      ∧ nextOf (run 3 (s.withEvents [.rise 9000, .read, .clear])) = some t :=
  ⟨st .awaitingHeaderMark 0#32 0#6 0x45#8 true,
    { st .awaitingHeaderSpace 0#32 0#6 0x45#8 false with outputs := [⟨true, 0x45#8⟩] }, by decide⟩
theorem witness_FrameBetweenReadAndClearIsLost :
    ∃ s : State, s.armed = true ∧ s.decoderState = .awaitingBitSpace ∧ s.bitCounter.toNat = 31
      ∧ (spaceBit s.build 1690).isSome = true ∧ 1690 < 2 ^ s.build.durW :=
  ⟨st .awaitingBitSpace 0x6F10FF00#32 31#6 0x45#8 true, by decide⟩

end Sys2Proof.Tests
end

/-! PROOFS. The build parameters along every input (spec/10_state.md rule R19). -/

namespace Sys2Proof.Machine

/-- Events one after the other that go on, taken apart at the first. -/
theorem execAll_cons_eq_next {i : Instr} {is : List Instr} {s t : State} (h : execAll (i :: is) s = .next t) :
    ∃ u, exec i s = .next u ∧ execAll is u = .next t := by
  cases hu : exec i s with
  | next u => exact ⟨u, rfl, by rwa [execAll_cons_of_next hu] at h⟩
  | fault r => cases r
  | refused r => simp [execAll, hu] at h

/-- What every event keeps, a list of events keeps. -/
theorem execAll_preserves {P : State → Prop} (hP : ∀ {i s t}, exec i s = .next t → P s → P t)
    {is : List Instr} {s t : State} (h : execAll is s = .next t) (hs : P s) : P t := by
  induction is generalizing s with
  | nil => cases h; exact hs
  | cons i is ih =>
    obtain ⟨u, hu, ht⟩ := execAll_cons_eq_next h
    exact ih ht (hP hu hs)

theorem execAll_build {is : List Instr} {s t : State} (h : execAll is s = .next t) : t.build = s.build :=
  execAll_preserves (P := fun u => u.build = s.build) (fun hu hs => (exec_build hu).trans hs) h rfl

@[simp] theorem tick_build (s : State) : (tick s).build = s.build := by
  cases ha : s.armed with
  | false => rw [tick_of_unarmed ha]
  | true => rw [tick_of_armed ha, setDurCount_build]

theorem lineTransition_build {level : Bool} {s t : State} (h : lineTransition level s = .next t) :
    t.build = s.build := by
  rcases lineTransition_cases h with ⟨-, rfl⟩ | ⟨-, -, rfl⟩
  · rfl
  · rw [advance_build, setDurCount_build]

/-- Settles O38: the queue is no part of the build, and no kind of input writes the build. -/
theorem noStepWritesTheBuild : Obligations.NoStepWritesTheBuild := by
  intro s t h
  rcases step_cases h with ⟨-, rfl⟩ | ⟨rest, w, i, -, -, hi⟩ | ⟨rest, w, v, i, j, -, -, -, hij⟩ | ⟨rest, -, rfl⟩
    | ⟨rest, -, rfl⟩ | ⟨rest, level, -, hl⟩ | ⟨rest, -, rfl⟩
  · rfl
  · exact (exec_build hi).trans (withInputs_build rest s)
  · exact (execAll_build hij).trans (withInputs_build rest s)
  · rfl
  · exact (tick_build _).trans (withInputs_build rest s)
  · exact (lineTransition_build hl).trans (withInputs_build rest s)
  · exact (powerOn_build _).trans (withInputs_build rest s)

end Sys2Proof.Machine

/-! PROOFS. The fields of an event word as quotient and remainder of its number, and decoding by kind
(spec/30_encoding.md rules R40 to R45). -/

namespace Sys2Proof

/-- The kind stands above the payload (R40). -/
theorem toNat_kindOf (n : Nat) (w : EventWordAt n) : (kindOf n w).toNat = w.toNat / 2 ^ n := by
  have hlt : w.toNat / 2 ^ n < 2 ^ 3 := by
    rw [Nat.div_lt_iff_lt_mul (Nat.two_pow_pos n), ← Nat.pow_add]
    exact w.isLt
  rw [kindOf, BitVec.extractLsb'_toNat, Nat.shiftRight_eq_div_pow, Nat.mod_eq_of_lt hlt]

/-- The payload is the low `n` bits (R40, R42). -/
theorem payloadOf_eq_mod (n : Nat) (w : EventWordAt n) : payloadOf n w = w.toNat % 2 ^ n := by
  rw [payloadOf, BitVec.extractLsb'_toNat, Nat.shiftRight_zero]

/-- The kind of the word whose number is a kind times 2^n plus a payload (R40). -/
theorem kindOf_ofNat {n p : Nat} (k : Nat) (hp : p < 2 ^ n) :
    kindOf n (BitVec.ofNat (3 + n) (k * 2 ^ n + p)) = BitVec.ofNat 3 k := by
  have hk : (k * 2 ^ n + p) / 2 ^ n = k := by
    rw [Nat.mul_comm, Nat.mul_add_div (Nat.two_pow_pos n), Nat.div_eq_of_lt hp, Nat.add_zero]
  apply BitVec.eq_of_toNat_eq
  rw [toNat_kindOf, BitVec.toNat_ofNat, BitVec.toNat_ofNat, Nat.add_comm 3 n, Nat.pow_add,
    Nat.mod_mul_right_div_self, hk]

/-- A word with the kind of an event decodes to that event; the payload matters for an edge only (R41, R42, R43). -/
theorem decodeAt_of_kindCode {n : Nat} {w : EventWordAt n} {i : Instr} (hk : kindOf n w = kindCode i)
    (hd : i.isEdge = true → i.duration = payloadOf n w) : decodeAt n w = .event i := by
  unfold decodeAt
  rw [hk]
  cases i with
  | fall d => rw [← hd rfl]; rfl
  | rise d => rw [← hd rfl]; rfl
  | init => rfl
  | clear => rfl
  | read => rfl

/-- A number on the port with the kind of a non-edge decodes to it, whatever the payload (R43). -/
theorem decodePort_of_nonEdge {n p : Nat} {i : Instr} (hi : i.isEdge = false) (hp : p < 2 ^ n) :
    decodePort n ((kindCode i).toNat * 2 ^ n + p) = .event i := by
  apply decodeAt_of_kindCode
  · rw [kindOf_ofNat _ hp, BitVec.ofNat_toNat, BitVec.setWidth_eq]
  · simp [hi]

/-- The kinds 2, 3 and 4 are those of the events without an operand (R41). -/
theorem exists_nonEdge_of_kind {k : Nat} (h : k = 2 ∨ k = 3 ∨ k = 4) :
    ∃ i : Instr, i.isEdge = false ∧ (kindCode i).toNat = k := by
  rcases h with rfl | rfl | rfl
  · exact ⟨.init, rfl, rfl⟩
  · exact ⟨.clear, rfl, rfl⟩
  · exact ⟨.read, rfl, rfl⟩

theorem duration_of_nonEdge {i : Instr} (hi : i.isEdge = false) : i.duration = 0 := by
  cases i with
  | fall d => cases hi
  | rise d => cases hi
  | init => rfl
  | clear => rfl
  | read => rfl

/-- The encoder's payload is the duration, cut to the width (R42). -/
theorem payloadOf_encodeAt (n : Nat) (i : Instr) : payloadOf n (encodeAt n i) = i.duration % 2 ^ n := by
  rw [encodeAt, payloadOf_append, BitVec.toNat_ofNat]

/-- Settles O2: the quotient is the kind field and the remainder the payload, so each number of a kind is one case of
decoding by kind. -/
theorem decodeReadsKindAndPayload : Obligations.DecodeReadsKindAndPayload := by
  intro n w
  rw [← toNat_kindOf, ← payloadOf_eq_mod]
  split
  case h_1 h => exact decodeAt_of_kindCode (BitVec.eq_of_toNat_eq h) fun _ => rfl
  case h_2 h => exact decodeAt_of_kindCode (BitVec.eq_of_toNat_eq h) fun _ => rfl
  case h_3 h => exact decodeAt_of_kindCode (BitVec.eq_of_toNat_eq h) nofun
  case h_4 h => exact decodeAt_of_kindCode (BitVec.eq_of_toNat_eq h) nofun
  case h_5 h => exact decodeAt_of_kindCode (BitVec.eq_of_toNat_eq h) nofun
  case h_6 h0 h1 h2 h3 h4 =>
    have hreserved : 5 ≤ (kindOf n w).toNat := by
      simp only [imp_false] at h0 h1 h2 h3 h4
      omega
    rw [BitVec.ofNat_toNat, BitVec.setWidth_eq, decodeAt_eq_reserved]
    exact ⟨rfl, hreserved⟩

namespace Machine

/-- A word of a non-edge kind at the head of the queue runs that event, whatever its payload (R34, R43). -/
theorem step_of_nonEdge {s : State} {p : Nat} {i : Instr} (rest : List Input) (hi : i.isEdge = false)
    (hp : p < 2 ^ s.build.durW) :
    step (withInputs (.event ((kindCode i).toNat * 2 ^ s.build.durW + p) :: rest) s) = exec i (withInputs rest s) := by
  rw [step_cons (withInputs_inputs _ _), withInputs_withInputs]
  exact deliver_of_event (decodePort_of_nonEdge hi hp)

/-- Settles O5: both words run the event of their kind on the same state, and the encoder's payload is the duration,
which is 0 without an operand. -/
theorem payloadOfANonEdgeIsIgnored : Obligations.PayloadOfANonEdgeIsIgnored := by
  constructor
  · intro s k p q rest hk hp hq
    obtain ⟨i, hi, rfl⟩ := exists_nonEdge_of_kind hk
    exact (step_of_nonEdge rest hi hp).trans (step_of_nonEdge rest hi hq).symm
  · intro n i hi
    rw [encodePort, ← payloadOf_eq_mod, payloadOf_encodeAt, duration_of_nonEdge hi, Nat.zero_mod]

end Machine

end Sys2Proof

/-! PROOFS. The comparator's window: its two ends, and the range of durations it accepts (spec/40_classifier.md rules
R50 to R52). -/

namespace Sys2Proof.Machine

/-- A duration is rejected at or below the lower bound, or at or above the upper one (R50). -/
theorem classify_eq_false (d n : Nat) : classify d n = false ↔ d ≤ n - n / 3 ∨ n + n / 3 ≤ d := by
  rw [← Bool.not_eq_true, classify_eq_true, not_and_or, Nat.not_lt, Nat.not_lt]

/-- A nominal value below 3 has tolerance 0, so its open window is empty (R50). -/
theorem classify_eq_false_of_lt_three {n : Nat} (d : Nat) (hn : n < 3) : classify d n = false := by
  rw [classify_eq_false, Nat.div_eq_of_lt hn]
  exact le_total d n

/-- Settles O13: each bound lies outside the window, and so does 0, which is not above the lower bound. -/
theorem comparatorWindowIsStrict : Obligations.ComparatorWindowIsStrict := by
  intro d n
  have lower : classify (n - n / 3) n = false := (classify_eq_false _ n).2 (.inl le_rfl)
  have upper : classify (n + n / 3) n = false := (classify_eq_false _ n).2 (.inr le_rfl)
  have zero : classify 0 n = false := (classify_eq_false 0 n).2 (.inl (Nat.zero_le _))
  exact ⟨classify_eq_true d n, lower, upper, classify_eq_false_of_lt_three d, zero⟩

/-- The open window of R50 as the closed range in which the table of R52 writes it. -/
theorem accepts_iff_of_nominal_eq {b : Build} {n : Nat} (w : Window) (d : Nat) (h : b.nominal w = n) :
    accepts b w d = true ↔ n - n / 3 + 1 ≤ d ∧ d ≤ n + n / 3 - 1 := by
  rw [accepts_eq_true, h]
  omega

/-- Settles O14: each row is the accepted range at that window's default nominal value. -/
theorem defaultWindowsAcceptTheTable : Obligations.DefaultWindowsAcceptTheTable := by
  intro b d ⟨hHM, hHS, hBM, hB0, hB1⟩
  exact ⟨accepts_iff_of_nominal_eq .headerMark d hHM, accepts_iff_of_nominal_eq .headerSpace d hHS,
    accepts_iff_of_nominal_eq .bitMark d hBM, accepts_iff_of_nominal_eq .bitSpaceZero d hB0,
    accepts_iff_of_nominal_eq .bitSpaceOne d hB1⟩

end Sys2Proof.Machine

/-! PROOFS. The edge step, one equation for each state and polarity, what a stored bit leaves behind, and the silence
before INIT (spec/41_edge_events.md rules R63 to R73). -/

namespace Sys2Proof.Machine

theorem exec_rise_of_coherent (d : Nat) {s : State} (ha : s.armed = true) (hc : s.coherent = true) :
    exec (.rise d) s = .next (advance true d s) := by
  rw [exec_rise, edge_of_coherent true d ha hc]

theorem exec_fall_of_coherent (d : Nat) {s : State} (ha : s.armed = true) (hc : s.coherent = true) :
    exec (.fall d) s = .next (advance false d s) := by
  rw [exec_fall, edge_of_coherent false d ha hc]

/-- A counter with a position left to write is coherent in every state (R20). -/
theorem coherent_of_bitCounter_lt {s : State} (h : s.bitCounter.toNat < 32) : s.coherent = true :=
  (coherent_iff s).2 ⟨h.le, fun _ => h⟩

section awaitingHeaderMark
variable {s : State} (d : Nat) (hp : s.decoderState = .awaitingHeaderMark)
include hp

theorem advance_rise_of_headerMark (hd : accepts s.build .headerMark d = true) :
    advance true d s = enter .awaitingHeaderSpace (clearFrame s) := by
  simp [advance, hp, edgeAwaitingHeaderMark, hd]

/-- The recovery finds State at AHM already (R64). -/
theorem advance_rise_of_not_headerMark (hd : accepts s.build .headerMark d = false) : advance true d s = s := by
  simp [advance, hp, edgeAwaitingHeaderMark, hd, recover_of_awaitingHeaderMark hp]

/-- The recovery finds State at AHM already (R65). -/
theorem advance_fall_awaitingHeaderMark : advance false d s = s := by
  simp [advance, hp, edgeAwaitingHeaderMark, recover_of_awaitingHeaderMark hp]

end awaitingHeaderMark

section awaitingHeaderSpace
variable {s : State} (d : Nat) (hp : s.decoderState = .awaitingHeaderSpace)
include hp

theorem advance_fall_awaitingHeaderSpace :
    advance false d s =
      enter (if accepts s.build .headerSpace d = true then .awaitingBitMark else .awaitingHeaderMark) s := by
  cases hd : accepts s.build .headerSpace d <;> simp [advance, hp, edgeAwaitingHeaderSpace, hd, recover]

theorem advance_rise_awaitingHeaderSpace : advance true d s = recover s := by
  simp [advance, hp, edgeAwaitingHeaderSpace]

end awaitingHeaderSpace

section awaitingBitMark
variable {s : State} (d : Nat) (hp : s.decoderState = .awaitingBitMark)
include hp

theorem advance_rise_awaitingBitMark :
    advance true d s =
      enter (if accepts s.build .bitMark d = true then .awaitingBitSpace else .awaitingHeaderMark) s := by
  cases hd : accepts s.build .bitMark d <;> simp [advance, hp, edgeAwaitingBitMark, hd, recover]

theorem advance_fall_awaitingBitMark : advance false d s = recover s := by
  simp [advance, hp, edgeAwaitingBitMark]

end awaitingBitMark

section awaitingBitSpace
variable {s : State} (d : Nat) (hp : s.decoderState = .awaitingBitSpace)
include hp

theorem advance_rise_awaitingBitSpace : advance true d s = recover s := by
  simp [advance, hp, edgeAwaitingBitSpace]

theorem advance_fall_of_spaceBit {b : Bool} (hb : spaceBit s.build d = some b) :
    advance false d s = finishBit (storeBit b s) := by
  simp [advance, hp, edgeAwaitingBitSpace, hb]

theorem advance_fall_of_not_spaceBit (hb : spaceBit s.build d = none) : advance false d s = recover s := by
  simp [advance, hp, edgeAwaitingBitSpace, hb]

end awaitingBitSpace

/-- Below the counter's top, the bit store with its completion test stores the bit: the 32nd publishes what the store
has just written, any other goes on to the next mark (R72, R73). -/
theorem storesBit_finishBit {s : State} (b : Bool) (hlt : s.bitCounter.toNat < 32) :
    StoresBit b s (finishBit (storeBit b s)) := by
  have hbits := getLsbD_writeBit s.rawFrame s.bitCounter.toNat b
  have hcount := toNat_bitCounter_succ s.bitCounter hlt
  rw [finishBit_storeBit b s hlt]
  by_cases hlast : s.bitCounter.toNat = 31
  · rw [if_pos hlast]
    exact ⟨hbits, hcount, fun _ => ⟨rfl, rfl, getLsbD_commandField _⟩, fun hne => absurd hlast hne,
      rfl, rfl, rfl, rfl, rfl, rfl⟩
  · rw [if_neg hlast]
    exact ⟨hbits, hcount, fun heq => absurd heq hlast, fun _ => ⟨rfl, rfl, rfl⟩, rfl, rfl, rfl, rfl, rfl, rfl⟩

/-- A falling edge whose duration stands for a bit stores that bit (R70). -/
theorem exec_fall_storesBit {s : State} {d : Nat} {b : Bool} (ha : s.armed = true)
    (hp : s.decoderState = .awaitingBitSpace) (hlt : s.bitCounter.toNat < 32) (hb : spaceBit s.build d = some b) :
    ∃ t, exec (.fall d) s = .next t ∧ StoresBit b s t := by
  refine ⟨finishBit (storeBit b s), ?_, storesBit_finishBit b hlt⟩
  rw [exec_fall_of_coherent d ha (coherent_of_bitCounter_lt hlt), advance_fall_of_spaceBit d hp hb]

/-- Settles O22: the two windows, BitSpaceZero first, decide which bit the space stands for, if any; a stored bit is
`storesBit_finishBit`, and no bit is the recovery. -/
theorem bitSpaceStoresItsBit : Obligations.BitSpaceStoresItsBit := by
  intro s d ha hp hlt
  refine ⟨fun h0 => ?_, fun h0 h1 => ?_, fun h0 h1 => ?_⟩
  · exact exec_fall_storesBit ha hp hlt ((spaceBit_eq_some _ _ _).2 (.inl ⟨rfl, h0⟩))
  · exact exec_fall_storesBit ha hp hlt ((spaceBit_eq_some _ _ _).2 (.inr ⟨rfl, h0, h1⟩))
  · have hnone : spaceBit s.build d = none := (spaceBit_eq_none _ _).2 ⟨h0, h1⟩
    rw [exec_fall_of_coherent d ha (coherent_of_bitCounter_lt hlt), advance_fall_of_not_spaceBit d hp hnone]
    rfl

theorem lineTransition_of_unarmed (level : Bool) {s : State} (h : s.armed = false) :
    lineTransition level s = .next s := by
  simp [lineTransition, h]

/-- Settles O12: edges, ticks and line transitions all stop at the gate on Armed; the step has only taken its input. -/
theorem beforeInitEdgesAndTicksChangeNothing : Obligations.BeforeInitEdgesAndTicksChangeNothing := by
  intro s ha
  refine ⟨fun d => ⟨edge_of_unarmed true d ha, edge_of_unarmed false d ha⟩, fun rest hi => ?_, fun rest level hi => ?_⟩
  · rw [step_cons hi, perform, tick_of_unarmed (s := withInputs rest s) ha]
    rfl
  · rw [step_cons hi]
    exact lineTransition_of_unarmed level (s := withInputs rest s) ha

/-- Settles O17: the HeaderMark window decides between a new frame and a recovery that finds State at AHM. -/
theorem headerMarkStartsAFrame : Obligations.HeaderMarkStartsAFrame := by
  intro s d ha hc hp
  rw [exec_rise_of_coherent d ha hc]
  constructor
  · intro hd
    rw [advance_rise_of_headerMark d hp hd]
    rfl
  · intro hd
    rw [advance_rise_of_not_headerMark d hp hd]

/-- Settles O18: a falling edge only recovers, and State is at AHM already. -/
theorem fallingEdgeIsIgnoredWhileAwaitingAHeader : Obligations.FallingEdgeIsIgnoredWhileAwaitingAHeader := by
  intro s d ha hc hp
  rw [exec_fall_of_coherent d ha hc, advance_fall_awaitingHeaderMark d hp]

/-- Settles O19: a falling edge in AHS writes State alone, by the HeaderSpace window. -/
theorem headerSpaceEntersTheBits : Obligations.HeaderSpaceEntersTheBits := by
  intro s d ha hc hp
  rw [exec_fall_of_coherent d ha hc, advance_fall_awaitingHeaderSpace d hp]
  rfl

/-- Settles O20: a rising edge in ABM writes State alone, by the BitMark window. -/
theorem bitMarkEntersTheSpace : Obligations.BitMarkEntersTheSpace := by
  intro s d ha hc hp
  rw [exec_rise_of_coherent d ha hc, advance_rise_awaitingBitMark d hp]
  rfl

/-- Settles O21: the polarity test comes before the window test, so each of the three edges is the recovery. -/
theorem wrongPolarityReturnsToTheStart : Obligations.WrongPolarityReturnsToTheStart := by
  intro s d ha hc
  rw [exec_rise_of_coherent d ha hc, exec_fall_of_coherent d ha hc]
  refine ⟨fun hp => ?_, fun hp => ?_, fun hp => ?_⟩
  · rw [advance_rise_awaitingHeaderSpace d hp]; rfl
  · rw [advance_fall_awaitingBitMark d hp]; rfl
  · rw [advance_rise_awaitingBitSpace d hp]; rfl

end Sys2Proof.Machine

/-! PROOFS. INIT, CLEAR and READ: what each does to the state, and every word of their kinds at the head of the queue
(spec/42_control_consumer.md rules R80 to R82). -/

namespace Sys2Proof.Machine

/-- A word of a non-edge kind that stands first in the queue runs that event, whatever its payload (R34, R43). -/
theorem step_of_nonEdge_head {s : State} {p : Nat} {rest : List Input} {i : Instr} (hi : i.isEdge = false)
    (hp : p < 2 ^ s.build.durW)
    (hs : s.inputs = .event ((kindCode i).toNat * 2 ^ s.build.durW + p) :: rest) :
    step s = exec i (withInputs rest s) := by
  rw [← step_of_nonEdge rest hi hp, ← hs, withInputs_self]

/-- CLEAR has nothing to write when the flag is already 0 (R81). -/
theorem clearReady_of_not_readyFlag {s : State} (h : s.readyFlag = false) : clearReady s = s := by
  cases s; cases h; rfl

/-- While armed, READ gives the two output ports (R82). -/
theorem exec_read_of_armed {s : State} (h : s.armed = true) : exec .read s = .next (emit s.port s) := by
  rw [exec_read, h, cond_true]

/-- Before INIT, READ gives a free pair (R82). -/
theorem exec_read_of_unarmed {s : State} (h : s.armed = false) :
    exec .read s = .next (advanceDraws (emit (unarmedPort s.draws) s)) := by
  rw [exec_read, h, cond_false]

/-- Settles O25: INIT is `initDecoder` from every state, and `initDecoder` is idempotent. -/
theorem initWritesEveryRegister : Obligations.InitWritesEveryRegister := by
  refine ⟨exec_init, fun s t h => ?_, fun s p rest hp hs => step_of_nonEdge_head (i := .init) rfl hp hs⟩
  cases h
  rw [exec_init, initDecoder_initDecoder]

/-- Settles O26: CLEAR is `clearReady`, whatever Armed is, and that is no change where the flag is 0. -/
theorem clearWritesOnlyReadyFlag : Obligations.ClearWritesOnlyReadyFlag := by
  refine ⟨exec_clear, fun s h => ?_, fun s p rest hp hs => step_of_nonEdge_head (i := .clear) rfl hp hs⟩
  rw [exec_clear, clearReady_of_not_readyFlag h]

/-- Settles O27: Armed decides between the ports and a free pair, and either is only appended to the outputs. -/
theorem readGivesBothPortsAndChangesNoRegister : Obligations.ReadGivesBothPortsAndChangesNoRegister :=
  ⟨fun _ ha => exec_read_of_armed ha, fun s ha => ⟨unarmedPort s.draws, exec_read_of_unarmed ha⟩,
    fun _ _ _ hp hs => step_of_nonEdge_head (i := .read) rfl hp hs⟩

end Sys2Proof.Machine

/-! PROOFS. The reset input, and the registers after INIT (spec/70_reset_and_hazards.md rule R121). -/

namespace Sys2Proof.Machine

/-- A reset at the head of the queue runs the event INIT on the rest of it (R121). -/
theorem step_of_reset_head {s : State} {rest : List Input} (hs : s.inputs = .reset :: rest) :
    step s = exec .init (withInputs rest s) := by
  rw [step_cons hs, perform, exec]

/-- AHM is encoded as 0b00 (R11). -/
@[simp] theorem decoderStateCode_awaitingHeaderMark : decoderStateCode .awaitingHeaderMark = 0b00#2 := rfl

/-- Settles O9: the reset input runs INIT, and INIT answers `initDecoder`, whose registers are those of the table. -/
theorem resetInputIsInit : Obligations.ResetInputIsInit := by
  refine ⟨fun s rest hs => step_of_reset_head hs, fun s => ⟨initDecoder s, exec_init s, ?_⟩⟩
  simp only [initDecoder_decoderState, decoderStateCode_awaitingHeaderMark, initDecoder_rawFrame,
    initDecoder_bitCounter, initDecoder_decodedCommand, initDecoder_readyFlag, initDecoder_armed,
    initDecoder_durCount, and_self]

end Sys2Proof.Machine

/-! PROOFS. Event words in both directions, the words written out, and a word of a reserved kind (spec/30_encoding.md
rules R40 to R46). -/

namespace Sys2Proof

@[simp] theorem kindOf_encodeAt (n : Nat) (i : Instr) : kindOf n (encodeAt n i) = kindCode i := kindOf_append n _ _

/-- The duration of a well-formed event fits the payload; an event without an operand has the duration 0 (R42, R43). -/
theorem duration_lt_of_wellFormedAt {n : Nat} {i : Instr} (h : i.wellFormedAt n = true) : i.duration < 2 ^ n := by
  cases i with
  | fall d => exact of_decide_eq_true h
  | rise d => exact of_decide_eq_true h
  | init => exact Nat.two_pow_pos n
  | clear => exact Nat.two_pow_pos n
  | read => exact Nat.two_pow_pos n

/-- An event is well formed as soon as its duration fits the payload (R42). -/
theorem wellFormedAt_of_duration_lt {n : Nat} {i : Instr} (h : i.duration < 2 ^ n) : i.wellFormedAt n = true := by
  cases i with
  | fall d => exact decide_eq_true h
  | rise d => exact decide_eq_true h
  | init => rfl
  | clear => rfl
  | read => rfl

/-- Settles O3: the two fields of the encoded word are the event's kind and its duration, which fits the width. -/
theorem decodeOfEncodeIsTheEvent : Obligations.DecodeOfEncodeIsTheEvent := by
  intro n i hwf
  refine decodeAt_of_kindCode (kindOf_encodeAt n i) fun _ => ?_
  rw [payloadOf_encodeAt, Nat.mod_eq_of_lt (duration_lt_of_wellFormedAt hwf)]

/-- An edge that a word decodes to has the word's payload as its duration (R42). -/
theorem duration_of_decodeAt {n : Nat} {w : EventWordAt n} {i : Instr} (h : decodeAt n w = .event i)
    (hi : i.isEdge = true) : i.duration = payloadOf n w := by
  obtain ⟨-, hpayload⟩ := decodeAt_eq_event n w i h
  cases i with
  | fall d => exact hpayload d (.inl rfl)
  | rise d => exact hpayload d (.inr rfl)
  | init => cases hi
  | clear => cases hi
  | read => cases hi

/-- What decodes is well formed: the payload of a word fits its width (R42). -/
theorem wellFormedAt_of_decodeAt {n : Nat} {w : EventWordAt n} {i : Instr} (h : decodeAt n w = .event i) :
    i.wellFormedAt n = true := by
  apply wellFormedAt_of_duration_lt
  cases hi : i.isEdge with
  | true => rw [duration_of_decodeAt h hi]; exact payloadOf_lt n w
  | false => rw [duration_of_nonEdge hi]; exact Nat.two_pow_pos n

/-- Settles O4: the encoder puts the word's kind above the duration, which for an edge is the word's payload. -/
theorem encodeOfDecodeIsTheWord : Obligations.EncodeOfDecodeIsTheWord := by
  intro n w i h
  obtain ⟨hkind, -⟩ := decodeAt_eq_event n w i h
  refine ⟨wellFormedAt_of_decodeAt h, (kindOf_encodeAt n i).trans hkind, fun hi => ?_, fun hi => ?_⟩
  · rw [encodeAt, hkind, duration_of_decodeAt h hi, payloadOf, BitVec.ofNat_toNat, BitVec.setWidth_eq, append_fields]
  · rw [payloadOf_encodeAt, duration_of_nonEdge hi, Nat.zero_mod]

/-- Settles O1: each word's kind and payload are computed from its 19 bits. -/
theorem writtenOutWordsDecode : Obligations.WrittenOutWordsDecode := by
  unfold Obligations.WrittenOutWordsDecode
  decide

/-- A number on the port with a kind of 5, 6 or 7 is no event (R44). -/
theorem decodePort_of_reservedKind {n k p : Nat} (hk : k = 5 ∨ k = 6 ∨ k = 7) (hp : p < 2 ^ n) :
    decodePort n (k * 2 ^ n + p) = .reserved (BitVec.ofNat 3 k) := by
  refine (decodeAt_eq_reserved n _ _).2 ⟨kindOf_ofNat k hp, ?_⟩
  rcases hk with rfl | rfl | rfl <;> decide

namespace Machine

/-- Settles O6: the first step is refused, and a run stops with the refusal of its first step. -/
theorem reservedKindEndsTheRun : Obligations.ReservedKindEndsTheRun := by
  intro s k p rest n hk hp hs
  have hstep : step s = .refused (.reservedKind (BitVec.ofNat 3 k)) := by
    rw [step_cons hs]
    exact deliver_of_reserved (s := withInputs rest s) (decodePort_of_reservedKind hk hp)
  exact ⟨hstep, run_succ_of_refused n hstep⟩

/-- Settles O7: delivering a word that decodes is performing its event. -/
theorem stepRunsTheDecodedEvent : Obligations.StepRunsTheDecodedEvent := by
  intro s w rest i hs hd
  rw [step_cons hs]
  exact deliver_of_event (s := withInputs rest s) ((decodePort_toNat _ w).trans hd)

/-- Settles O8, by induction on the number of steps: each one takes no input and answers the same state. -/
theorem noInputHoldsTheState : Obligations.NoInputHoldsTheState := by
  intro s n hs
  induction n with
  | zero => rfl
  | succ n ih => rw [run_succ_of_next n (step_nil hs), ih]

end Machine

end Sys2Proof

/-! PROOFS. What an event does to Armed, to State and to the two published registers, and when it is refused
(spec/10_state.md rules R11, R14 to R16; spec/41_edge_events.md section 6). -/

namespace Sys2Proof.Machine

/-- The states that break invariant 1 or 2 of R20 (D28). -/
theorem coherent_eq_false_iff (s : State) :
    s.coherent = false ↔
      32 < s.bitCounter.toNat ∨ (s.decoderState ≠ .awaitingHeaderMark ∧ s.bitCounter.toNat = 32) := by
  rw [← Bool.not_eq_true, coherent_iff]
  by_cases hp : s.decoderState = .awaitingHeaderMark
  · simp [hp]
  · simp only [ne_eq, hp, not_false_eq_true, true_implies, true_and]
    omega

theorem edge_of_incoherent (level : Bool) (d : Nat) {s : State} (ha : s.armed = true) (hc : s.coherent = false) :
    edge level d s = .refused .illFormedState := by
  simp [edge, ha, hc]

/-- An edge instruction is the edge step at its level and with its duration (R61, R62). -/
theorem exec_of_isEdge {i : Instr} (hi : i.isEdge = true) : ∃ level, ∀ s, exec i s = edge level i.duration s := by
  cases i with
  | fall d => exact ⟨false, exec_fall d⟩
  | rise d => exact ⟨true, exec_rise d⟩
  | init => cases hi
  | clear => cases hi
  | read => cases hi

/-- Settles O16: `exec_eq_refused` is one direction, and in such a state an edge stops at the coherence test. -/
theorem onlyEdgesInIllFormedStatesAreRefused : Obligations.OnlyEdgesInIllFormedStatesAreRefused := by
  intro s i
  rw [← coherent_eq_false_iff]
  constructor
  · rintro ⟨r, h⟩
    obtain ⟨hi, ha, hc, -⟩ := exec_eq_refused h
    exact ⟨hi, ha, hc⟩
  · rintro ⟨hi, ha, hc⟩
    obtain ⟨level, hexec⟩ := exec_of_isEdge hi
    exact ⟨_, (hexec s).trans (edge_of_incoherent level _ ha hc)⟩

/-- Settles O15: the gate on Armed lets an unarmed block go on, and invariants 1 and 2 are coherence. -/
theorem edgesCompleteInEveryCoherentState : Obligations.EdgesCompleteInEveryCoherentState := by
  intro s d h
  have completes (level : Bool) : ∃ t, edge level d s = .next t := by
    cases ha : s.armed with
    | false => exact ⟨s, edge_of_unarmed level d ha⟩
    | true => exact ⟨_, edge_of_coherent level d ha ((coherent_iff s).2 (h ha))⟩
  exact ⟨completes true, completes false⟩

/-- What an edge of an armed block that goes on has answered (R60). -/
theorem edge_eq_next_of_armed {level : Bool} {d : Nat} {s t : State} (ha : s.armed = true)
    (h : edge level d s = .next t) : s.coherent = true ∧ t = advance level d s := by
  rcases (edge_eq_next level d s t).1 h with ⟨hunarmed, -⟩ | ⟨-, hc, ht⟩
  · rw [ha] at hunarmed; cases hunarmed
  · exact ⟨hc, ht⟩

/-- Settles O23: each case of `advance` is one of the moves, or the recovery. -/
theorem everyOtherEdgeOnlyResetsState : Obligations.EveryOtherEdgeOnlyResetsState := by
  intro s t i hi h ha
  obtain ⟨level, hexec⟩ := exec_of_isEdge hi
  obtain ⟨hc, rfl⟩ := edge_eq_next_of_armed ha ((hexec s).symm.trans h)
  rcases advance_cases level i.duration s with ⟨hp, -, -, ht⟩ | ⟨hp, -, -, ht⟩ | ⟨hp, -, -, ht⟩ | ⟨b, hp, -, -, ht⟩ | ht
  · rw [ht]; exact .inr (.inl ⟨hp, rfl⟩)
  · rw [ht]; exact .inr (.inr (.inl ⟨hp, rfl⟩))
  · rw [ht]; exact .inr (.inr (.inr (.inl ⟨hp, rfl⟩)))
  · obtain ⟨-, hcount, hdone, hmore, -⟩ := storesBit_finishBit b (bitCounter_lt_of_coherent hc (by simp [hp]))
    rw [ht]
    refine .inr (.inr (.inr (.inr ⟨hp, hcount, ?_⟩)))
    by_cases hlast : s.bitCounter.toNat = 31
    · exact .inr ⟨(hdone hlast).1, BitVec.eq_of_toNat_eq (by rw [hcount, hlast]; rfl)⟩
    · exact .inl (hmore hlast).1
  · exact .inl ht

/-- Only a falling edge can publish, so a rising one leaves the published registers alone (R61). -/
theorem advance_rise_ports (d : Nat) (s : State) :
    (advance true d s).decodedCommand = s.decodedCommand ∧ (advance true d s).readyFlag = s.readyFlag := by
  rcases advance_cases true d s with ⟨-, -, -, h⟩ | ⟨-, hl, -⟩ | ⟨-, -, -, h⟩ | ⟨-, -, hl, -⟩ | h
  · rw [h]; exact ⟨rfl, rfl⟩
  · cases hl
  · rw [h]; exact ⟨rfl, rfl⟩
  · cases hl
  · rw [h]; exact ⟨rfl, rfl⟩

theorem edge_frame {level : Bool} {d : Nat} {s t : State} (h : edge level d s = .next t) :
    t.armed = s.armed ∧ t.durCount = s.durCount ∧ t.build = s.build ∧ t.inputs = s.inputs
      ∧ t.outputs = s.outputs ∧ t.draws = s.draws := by
  rcases (edge_eq_next level d s t).1 h with ⟨-, rfl⟩ | ⟨-, -, rfl⟩ <;> simp

/-- Settles O24: the frame of the edge step, and for RISE the registers that only a falling edge publishes. -/
theorem edgesLeaveTheRestUnchanged : Obligations.EdgesLeaveTheRestUnchanged := by
  refine fun s t d => ⟨fun h => h.elim edge_frame edge_frame, fun h => ?_⟩
  rcases (edge_eq_next true d s t).1 h with ⟨-, rfl⟩ | ⟨-, -, rfl⟩
  · exact ⟨rfl, rfl⟩
  · exact advance_rise_ports d s

/-- The edge step of `s` at this level completes a frame and leaves `t` (R73). -/
structure Completes (level : Bool) (d : Nat) (s t : State) : Prop where
  awaitingSpace : s.decoderState = .awaitingBitSpace
  lastBit : s.bitCounter.toNat = 31
  falling : level = false
  readsAsBit : (spaceBit s.build d).isSome = true
  atStart : t.decoderState = .awaitingHeaderMark
  ready : t.readyFlag = true
  command : t.decodedCommand = commandField t.rawFrame
  full : t.bitCounter = 32#6

/-- An edge leaves both published registers alone or completes a frame (R15, R35, R73). -/
theorem advance_keeps_ports_or_completes (level : Bool) (d : Nat) {s : State} (hc : s.coherent = true) :
    ((advance level d s).decodedCommand = s.decodedCommand ∧ (advance level d s).readyFlag = s.readyFlag)
    ∨ Completes level d s (advance level d s) := by
  rcases advance_cases level d s with ⟨-, -, -, h⟩ | ⟨-, -, -, h⟩ | ⟨-, -, -, h⟩ | ⟨b, hp, hl, hb, h⟩ | h
  · rw [h]; exact .inl ⟨rfl, rfl⟩
  · rw [h]; exact .inl ⟨rfl, rfl⟩
  · rw [h]; exact .inl ⟨rfl, rfl⟩
  · have hlt := bitCounter_lt_of_coherent hc (by simp [hp])
    rw [h, finishBit_storeBit b s hlt]
    by_cases hlast : s.bitCounter.toNat = 31
    · rw [if_pos hlast]
      exact .inr ⟨hp, hlast, hl, by rw [hb, Option.isSome_some], rfl, rfl, rfl,
        (bitCounter_succ_eq_32 _ hlt).2 hlast⟩
    · rw [if_neg hlast]; exact .inl ⟨rfl, rfl⟩
  · rw [h]; exact .inl ⟨rfl, rfl⟩

/-- Settles O35: of all that an event can do, only the completion of a frame leaves ReadyFlag at 1 where it was 0. -/
theorem onlyACompletionRaisesReadyFlag : Obligations.OnlyACompletionRaisesReadyFlag := by
  intro s t i h hs ht
  rcases exec_cases h with ⟨-, -, rfl⟩ | ⟨level, d, rfl, ha, hc, rfl⟩ | ⟨-, rfl⟩ | ⟨-, rfl⟩ | ⟨-, -, rfl⟩ | ⟨-, -, rfl⟩
  · simp [hs] at ht
  · rcases advance_keeps_ports_or_completes level d hc with ⟨-, hkeep⟩ | hdone
    · simp [hkeep, hs] at ht
    · obtain rfl := hdone.falling
      exact ⟨ha, hdone.awaitingSpace, hdone.lastBit, ⟨d, rfl, hdone.readsAsBit⟩, hdone.atStart, hdone.command⟩
  · simp at ht
  · simp at ht
  · simp [hs] at ht
  · simp [hs] at ht

/-- Settles O36: of all that an event can do, only INIT and the completion of a frame write DecodedCommand. -/
theorem commandChangesOnlyWithThePublication : Obligations.CommandChangesOnlyWithThePublication := by
  intro s t i h hne
  rcases exec_cases h with ⟨-, -, rfl⟩ | ⟨level, d, -, -, hc, rfl⟩ | ⟨hi, -⟩ | ⟨-, rfl⟩ | ⟨-, -, rfl⟩ | ⟨-, -, rfl⟩
  · exact absurd rfl hne
  · rcases advance_keeps_ports_or_completes level d hc with ⟨hkeep, -⟩ | hdone
    · exact absurd hkeep hne
    · exact .inr ⟨hdone.ready, hdone.command, hdone.full, hdone.atStart⟩
  · exact .inl hi
  · exact absurd rfl hne
  · exact absurd rfl hne
  · exact absurd rfl hne

/-- Settles O39: the moves of State are those of the edge step, and the other events set it to AHM or leave it. -/
theorem stateMovesAlongTheProtocol : Obligations.StateMovesAlongTheProtocol := by
  intro s t i h
  rcases exec_cases h with ⟨-, -, rfl⟩ | ⟨level, d, -, -, -, rfl⟩ | ⟨-, rfl⟩ | ⟨-, rfl⟩ | ⟨-, -, rfl⟩ | ⟨-, -, rfl⟩
  · exact .inl rfl
  · rcases advance_cases level d s with ⟨hp, -, -, ht⟩ | ⟨hp, -, -, ht⟩ | ⟨hp, -, -, ht⟩ | ⟨b, hp, -, -, ht⟩ | ht
    · rw [ht]; exact .inr (.inr (.inl ⟨hp, rfl⟩))
    · rw [ht]; exact .inr (.inr (.inr (.inl ⟨hp, rfl⟩)))
    · rw [ht]; exact .inr (.inr (.inr (.inr (.inl ⟨hp, rfl⟩))))
    · rw [ht, finishBit]
      split
      · exact .inr (.inl rfl)
      · exact .inr (.inr (.inr (.inr (.inr ⟨hp, rfl⟩))))
    · rw [ht]; exact .inr (.inl rfl)
  · exact .inr (.inl rfl)
  · exact .inl rfl
  · exact .inl rfl
  · exact .inl rfl

/-- INIT arms the block, and no other event writes Armed (R16). -/
theorem exec_armed {i : Instr} {s t : State} (h : exec i s = .next t) :
    t.armed = true ↔ s.armed = true ∨ i = .init := by
  rcases exec_cases h with ⟨hi, -, rfl⟩ | ⟨level, d, -, ha, -, rfl⟩ | ⟨rfl, rfl⟩ | ⟨rfl, rfl⟩ | ⟨rfl, -, rfl⟩
    | ⟨rfl, -, rfl⟩
  · have hne : i ≠ .init := by rintro rfl; cases hi
    simp [hne]
  · simp [ha]
  · simp
  · simp
  · simp
  · simp

theorem execAll_armed {is : List Instr} {s t : State} (h : execAll is s = .next t) :
    t.armed = true ↔ s.armed = true ∨ .init ∈ is := by
  induction is generalizing s with
  | nil => cases h; simp
  | cons i is ih =>
    obtain ⟨u, hu, ht⟩ := execAll_cons_eq_next h
    rw [ih ht, exec_armed hu, List.mem_cons, or_assoc, eq_comm (a := i)]

/-- Two events of one clock hold an INIT to perform when one of them is INIT (R106 item 7). -/
theorem init_mem_serialize (i j : Instr) : .init ∈ serialize i j ↔ i = .init ∨ j = .init := by
  rcases serialize_cases i j with ⟨h, hinit⟩ | ⟨d, rfl, rfl, h⟩ | h
  · simp [h, hinit]
  · simp [h]
  · simp [h, eq_comm]

@[simp] theorem tick_armed (s : State) : (tick s).armed = s.armed := by
  cases ha : s.armed with
  | false => rw [tick_of_unarmed ha, ha]
  | true => rw [tick_of_armed ha, setDurCount_armed, ha]

theorem lineTransition_armed {level : Bool} {s t : State} (h : lineTransition level s = .next t) :
    t.armed = s.armed := by
  rcases lineTransition_cases h with ⟨-, rfl⟩ | ⟨-, -, rfl⟩
  · rfl
  · rw [advance_armed, setDurCount_armed]

/-- Settles O37: Armed after each kind of input, by what `exec_armed` says of the events it performs. -/
theorem armedIsSetByInitAndClearedByPowerOn : Obligations.ArmedIsSetByInitAndClearedByPowerOn := by
  intro s t h
  have kept {P Q : Prop} (hkeep : t.armed = s.armed) :
      (s.armed = true → t.armed = false → P) ∧ (s.armed = false → t.armed = true → Q) :=
    ⟨fun h1 h0 => by simp [h1, h0] at hkeep, fun h0 h1 => by simp [h0, h1] at hkeep⟩
  rcases step_cases h with ⟨-, ht⟩ | ⟨rest, w, i, hs, hw, hi⟩ | ⟨rest, w, v, i, j, hs, hw, hv, hij⟩ | ⟨rest, hs, rfl⟩
    | ⟨rest, -, rfl⟩ | ⟨rest, level, -, hl⟩ | ⟨rest, hs, rfl⟩
  · exact kept (by rw [ht])
  · have harmed := exec_armed hi
    refine ⟨fun h1 h0 => by simp [h1, h0] at harmed, fun h0 h1 => .inr (.inl ⟨w, by rw [hs]; rfl, ?_⟩)⟩
    simp only [h1, withInputs_armed, h0, Bool.false_eq_true, false_or, true_iff] at harmed
    rw [hw, harmed]
  · have harmed := execAll_armed hij
    refine ⟨fun h1 h0 => by simp [h1, h0] at harmed, fun h0 h1 => .inr (.inr ⟨w, v, by rw [hs]; rfl, ?_⟩)⟩
    simp only [h1, withInputs_armed, h0, Bool.false_eq_true, false_or, true_iff, init_mem_serialize] at harmed
    simpa [hw, hv] using harmed
  · exact ⟨fun _ h0 => by simp at h0, fun _ _ => .inl (by rw [hs]; rfl)⟩
  · exact kept (tick_armed _)
  · exact kept (lineTransition_armed (s := withInputs rest s) hl)
  · exact ⟨fun _ _ => by rw [hs]; rfl, fun _ h1 => by simp at h1⟩

end Sys2Proof.Machine

/-! PROOFS. The duration source: what a tick makes of DurCount, a run of ticks, and the edge that a line transition
forms of them (spec/60_exceptions.md rules R109 to R111). -/

namespace Sys2Proof.Machine

/-- A tick under `wrap` counts modulo 2^DUR_W (R109). -/
theorem nextCount_of_wrap {b : Build} {c : Nat} (hb : b.durOverflow = .wrap) (hc : c < 2 ^ b.durW) :
    nextCount b c = (c + 1) % 2 ^ b.durW := by
  unfold nextCount
  split
  next hlt => rw [Nat.mod_eq_of_lt (by omega)]
  next htop => rw [hb, show c + 1 = 2 ^ b.durW by omega, Nat.mod_self]

/-- A tick under `saturate` counts up to 2^DUR_W - 1 (R109). -/
theorem nextCount_of_saturate {b : Build} {c : Nat} (hb : b.durOverflow = .saturate) :
    nextCount b c = min (c + 1) (2 ^ b.durW - 1) := by
  unfold nextCount
  split
  next hlt => rw [min_eq_left (by omega)]
  next htop => rw [hb, min_eq_right (by omega)]

theorem countAfter_of_wrap {b : Build} (m : Nat) {c : Nat} (hb : b.durOverflow = .wrap) (hc : c < 2 ^ b.durW) :
    countAfter b m c = (c + m) % 2 ^ b.durW := by
  induction m generalizing c with
  | zero => exact (Nat.mod_eq_of_lt hc).symm
  | succ m ih =>
    rw [countAfter, ih (nextCount_lt b c), nextCount_of_wrap hb hc, Nat.mod_add_mod, add_right_comm, add_assoc]

theorem countAfter_of_saturate {b : Build} (m : Nat) {c : Nat} (hb : b.durOverflow = .saturate)
    (hc : c < 2 ^ b.durW) : countAfter b m c = min (c + m) (2 ^ b.durW - 1) := by
  induction m generalizing c with
  | zero => exact (min_eq_left (Nat.le_sub_one_of_lt hc)).symm
  | succ m ih =>
    rw [countAfter, ih (nextCount_lt b c), nextCount_of_saturate hb]
    omega

theorem step_of_tick_head {s : State} {rest : List Input} (hs : s.inputs = .tick :: rest) (ha : s.armed = true) :
    step s = .next (withInputs rest (setDurCount (nextCount s.build s.durCount) s)) := by
  rw [step_cons hs, perform, tick_of_armed (s := withInputs rest s) ha]
  rfl

/-- Settles O30: below 2^DUR_W - 1 the count advances, and at 2^DUR_W - 1 each policy gives its value. -/
theorem tickAdvancesTheCounter : Obligations.TickAdvancesTheCounter := by
  intro s rest hs ha
  rw [step_of_tick_head hs ha]
  refine ⟨fun hlt => ?_, fun htop hb => ?_, fun htop hb => ?_⟩
  · rw [nextCount, if_pos hlt]
    rfl
  · rw [nextCount, if_neg (by omega), hb]
    rfl
  · have hkeep : nextCount s.build s.durCount = s.durCount := by
      rw [nextCount_of_saturate hb, min_eq_right (by omega), htop]
    rw [hkeep]
    rfl

/-- The edge event of a level after the edge (R41). -/
theorem exec_edge_of_level (level : Bool) (d : Nat) (s : State) :
    exec (if level = true then .rise d else .fall d) s = edge level d s := by
  cases level <;> rfl

/-- An armed block's line transition is the edge event with DurCount as its duration (R110). -/
theorem lineTransition_of_armed (level : Bool) {s : State} (ha : s.armed = true) :
    lineTransition level s =
      exec (if level = true then .rise s.durCount else .fall s.durCount) (setDurCount 0 s) := by
  rw [exec_edge_of_level, lineTransition, ha]
  rfl

/-- Settles O31: the step is the line transition on the rest of the queue, which captures and clears DurCount. -/
theorem lineTransitionIsAnEdgeWithTheCount : Obligations.LineTransitionIsAnEdgeWithTheCount := by
  intro s rest level hs ha
  rw [step_cons hs]
  exact lineTransition_of_armed level (s := withInputs rest s) ha

/-- A run of one step answers what the step answers. -/
theorem run_one (s : State) : run 1 s = step s := by
  cases h : step s with
  | next t => rw [run_succ_of_next 0 h, run_zero]
  | fault r => cases r
  | refused r => rw [run_succ_of_refused 0 h]

/-- Settles O32: the ticks are counted by `run_ticks`, whose count is the stated one under either policy, and the last
step is the line transition with that count. -/
theorem intervalIsDeliveredAsItsTicks : Obligations.IntervalIsDeliveredAsItsTicks := by
  intro s m level rest d ha hc hs hwrap hsaturate
  have hcount : countAfter s.build m s.durCount = d := by
    cases hb : s.build.durOverflow with
    | wrap => rw [countAfter_of_wrap m hb hc, hwrap hb]
    | saturate => rw [countAfter_of_saturate m hb hc, hsaturate hb]
  rw [run_ticks m 1 ha hs, hcount, run_one]
  exact lineTransitionIsAnEdgeWithTheCount _ rest level rfl ha

end Sys2Proof.Machine

/-! PROOFS. The register invariants along every input, and the runs that never stop (spec/10_state.md rule R20). -/

namespace Sys2Proof.Machine

/-- Moving on inside a frame keeps the invariants, which do not tell ABM, ABS and their counters apart. -/
theorem registersCoherent_enter_bits {s : State} {p : DecoderState} (h : RegistersCoherent s)
    (hs : s.decoderState ≠ .awaitingHeaderMark) (hp : p = .awaitingBitMark ∨ p = .awaitingBitSpace) :
    RegistersCoherent (enter p s) := by
  obtain ⟨hle, hlt, -, hclear, -⟩ := h
  refine ⟨hle, fun _ => hlt hs, fun he => ?_, fun _ => hclear hs, fun he => ?_⟩
  all_goals rcases hp with rfl | rfl <;> cases he

/-- Abandoning a frame leaves a counter below 32, or finds the block in AHM already (R74). -/
theorem registersCoherent_recover {s : State} (h : RegistersCoherent s) : RegistersCoherent (recover s) := by
  by_cases hs : s.decoderState = .awaitingHeaderMark
  · rwa [recover_of_awaitingHeaderMark hs]
  · obtain ⟨hle, hlt, -⟩ := h
    refine ⟨hle, fun hne => absurd rfl hne, nofun, fun hne => absurd rfl hne, fun _ hfull => ?_⟩
    have hcount := hlt hs
    rw [recover_bitCounter] at hfull
    simp [hfull] at hcount

/-- The bit store leaves the bits above its position clear, and the publication is of the frame it has just written. -/
theorem registersCoherent_finishBit {s : State} (b : Bool) (h : RegistersCoherent s)
    (hs : s.decoderState ≠ .awaitingHeaderMark) : RegistersCoherent (finishBit (storeBit b s)) := by
  obtain ⟨-, hlt, -, hclear, -⟩ := h
  have hcount := toNat_bitCounter_succ s.bitCounter (hlt hs)
  rw [finishBit_storeBit b s (hlt hs)]
  by_cases hlast : s.bitCounter.toNat = 31
  · rw [if_pos hlast]
    refine ⟨?_, fun hne => absurd rfl hne, nofun, fun hne => absurd rfl hne, fun _ _ => rfl⟩
    exact hcount.trans_le (by omega)
  · rw [if_neg hlast]
    have hmore : (s.bitCounter + 1#6).toNat < 32 := by
      have := hlt hs
      omega
    refine ⟨hmore.le, fun _ => hmore, nofun, fun _ k hk hle => ?_, nofun⟩
    have habove : s.bitCounter.toNat < k := Nat.lt_of_succ_le (hcount.symm.trans_le hle)
    show (writeBit s.rawFrame s.bitCounter.toNat b).getLsbD k = false
    rw [getLsbD_writeBit _ _ _ _ hk, if_neg habove.ne']
    exact hclear hs k hk habove.le

theorem registersCoherent_advance (level : Bool) (d : Nat) {s : State} (h : RegistersCoherent s) :
    RegistersCoherent (advance level d s) := by
  rcases advance_cases level d s with ⟨-, -, -, ht⟩ | ⟨hp, -, -, ht⟩ | ⟨hp, -, -, ht⟩ | ⟨b, hp, -, -, ht⟩ | ht
  · rw [ht]
    exact ⟨by simp, fun _ => by simp, fun _ => ⟨rfl, rfl⟩, fun _ k _ _ => by simp, nofun⟩
  · rw [ht]; exact registersCoherent_enter_bits h (by simp [hp]) (.inl rfl)
  · rw [ht]; exact registersCoherent_enter_bits h (by simp [hp]) (.inr rfl)
  · rw [ht]; exact registersCoherent_finishBit b h (by simp [hp])
  · rw [ht]; exact registersCoherent_recover h

theorem inv_advance (level : Bool) (d : Nat) {s : State} (h : s.Inv) : (advance level d s).Inv := by
  obtain ⟨hbuild, hcount, hregs⟩ := h
  exact ⟨by rwa [advance_build], by rwa [advance_durCount, advance_build],
    fun ha => registersCoherent_advance level d (hregs (by rwa [advance_armed] at ha))⟩

/-- INIT brings about the invariants of the registers from every state (R80). -/
theorem inv_initDecoder {s : State} (hbuild : s.build.wellFormed = true) : (initDecoder s).Inv :=
  ⟨hbuild, Nat.two_pow_pos _, fun _ => ⟨by simp, fun _ => by simp, nofun, fun _ k _ _ => by simp, fun _ => by simp⟩⟩

theorem inv_setDurCount {s : State} {c : Nat} (h : s.Inv) (hc : c < 2 ^ s.build.durW) : (setDurCount c s).Inv := by
  obtain ⟨hbuild, -, hregs⟩ := h
  exact ⟨hbuild, hc, hregs⟩

theorem inv_withInputs {s : State} (rest : List Input) (h : s.Inv) : (withInputs rest s).Inv := h

/-- Power-on leaves the registers free, but Armed at 0 and DurCount within its width (R120). -/
theorem inv_powerOn {s : State} (h : s.Inv) : (powerOn s).Inv := by
  obtain ⟨hbuild, -⟩ := h
  exact ⟨hbuild, Nat.mod_lt _ (Nat.two_pow_pos _), nofun⟩

theorem exec_keeps_inv {i : Instr} {s t : State} (h : exec i s = .next t) (hs : s.Inv) : t.Inv := by
  rcases exec_cases h with ⟨-, -, rfl⟩ | ⟨level, d, -, -, -, rfl⟩ | ⟨-, rfl⟩ | ⟨-, rfl⟩ | ⟨-, -, rfl⟩ | ⟨-, -, rfl⟩
  · exact hs
  · exact inv_advance level d hs
  · obtain ⟨hbuild, -⟩ := hs
    exact inv_initDecoder hbuild
  · exact hs
  · exact hs
  · exact hs

theorem tick_keeps_inv {s : State} (h : s.Inv) : (tick s).Inv := by
  cases ha : s.armed with
  | false => rwa [tick_of_unarmed ha]
  | true => rw [tick_of_armed ha]; exact inv_setDurCount h (nextCount_lt _ _)

theorem lineTransition_keeps_inv {level : Bool} {s t : State} (h : lineTransition level s = .next t) (hs : s.Inv) :
    t.Inv := by
  rcases lineTransition_cases h with ⟨-, rfl⟩ | ⟨-, -, rfl⟩
  · exact hs
  · exact inv_advance _ _ (inv_setDurCount hs (Nat.two_pow_pos _))

/-- Settles O41: each kind of input performs events, or an operation of the front end, that keep the invariants. -/
theorem everyStepKeepsTheRegistersCoherent : Obligations.EveryStepKeepsTheRegistersCoherent := by
  intro s t hinv h
  rcases step_cases h with ⟨-, rfl⟩ | ⟨rest, w, i, -, -, hi⟩ | ⟨rest, w, v, i, j, -, -, -, hij⟩ | ⟨rest, -, rfl⟩
    | ⟨rest, -, rfl⟩ | ⟨rest, level, -, hl⟩ | ⟨rest, -, rfl⟩
  · exact hinv
  · exact exec_keeps_inv hi (inv_withInputs rest hinv)
  · exact execAll_preserves exec_keeps_inv hij (inv_withInputs rest hinv)
  · obtain ⟨hbuild, -⟩ := hinv
    exact inv_initDecoder hbuild
  · exact tick_keeps_inv (inv_withInputs rest hinv)
  · exact lineTransition_keeps_inv hl (inv_withInputs rest hinv)
  · exact inv_powerOn (inv_withInputs rest hinv)

/-- Settles O40: at reset every register is 0, in AHM, and the default constants fit 16 bits. -/
theorem coherenceHoldsAtReset : Obligations.CoherenceHoldsAtReset := by
  have hbuild : State.reset.build.wellFormed = true := rfl
  exact inv_initDecoder hbuild

/-- Settles O10: the reset state is written out with these values. -/
theorem resetGivesTheTable : Obligations.ResetGivesTheTable := by
  exact ⟨rfl, rfl, rfl, rfl, rfl, rfl, rfl, ⟨rfl, rfl, rfl, rfl, rfl⟩, rfl, rfl⟩

/-- Settles O11: power-on keeps the queue, the outputs and the build, and INIT writes all that power-on left free. -/
theorem initAfterPowerOnGivesTheResetRegisters : Obligations.InitAfterPowerOnGivesTheResetRegisters := by
  intro s rest hs
  refine ⟨powerOn (withInputs rest s), step_cons hs, rfl, rfl, rfl, rfl, ?_⟩
  exact ⟨_, exec_init _, rfl, rfl, rfl, rfl, rfl⟩

/-- An armed block that meets the invariants is coherent, so it refuses no event (D28). -/
theorem exec_goes_on {s : State} (i : Instr) (h : s.Inv) : ∃ t, exec i s = .next t := by
  cases ht : exec i s with
  | next t => exact ⟨t, rfl⟩
  | fault r => cases r
  | refused r =>
    obtain ⟨-, ha, hc, -⟩ := exec_eq_refused ht
    obtain ⟨-, -, hregs⟩ := h
    rw [coherent_of_registersCoherent (hregs ha)] at hc
    cases hc

theorem execAll_goes_on (is : List Instr) {s : State} (h : s.Inv) : ∃ t, execAll is s = .next t := by
  induction is generalizing s with
  | nil => exact ⟨s, rfl⟩
  | cons i is ih =>
    obtain ⟨u, hu⟩ := exec_goes_on i h
    obtain ⟨t, ht⟩ := ih (exec_keeps_inv hu h)
    exact ⟨t, (execAll_cons_of_next hu).trans ht⟩

theorem lineTransition_goes_on (level : Bool) {s : State} (h : s.Inv) : ∃ t, lineTransition level s = .next t := by
  cases ha : s.armed with
  | false => exact ⟨s, lineTransition_of_unarmed level ha⟩
  | true => rw [lineTransition_of_armed level ha]; exact exec_goes_on _ (inv_setDurCount h (Nat.two_pow_pos _))

/-- An event word with a meaning decodes to an event. -/
theorem decodePort_of_hasMeaning {n w : Nat} (h : (Input.event w).hasMeaning n = true) :
    ∃ i, decodePort n w = .event i := by
  cases hd : decodePort n w with
  | event i => exact ⟨i, rfl⟩
  | reserved k => simp [Input.hasMeaning, hd] at h

theorem decodePort_of_sameClock_hasMeaning {n w v : Nat} (h : (Input.sameClock w v).hasMeaning n = true) :
    (∃ i, decodePort n w = .event i) ∧ ∃ j, decodePort n v = .event j := by
  cases hw : decodePort n w with
  | reserved k => simp [Input.hasMeaning, hw] at h
  | event i =>
    cases hv : decodePort n v with
    | reserved k => simp [Input.hasMeaning, hw, hv] at h
    | event j => exact ⟨⟨i, rfl⟩, j, rfl⟩

/-- An input with a meaning is performed from every state that meets the invariants (R100). -/
theorem perform_goes_on {x : Input} {s : State} (h : s.Inv) (hx : x.hasMeaning s.build.durW = true) :
    ∃ t, perform x s = .next t := by
  cases x with
  | event w =>
    obtain ⟨i, hw⟩ := decodePort_of_hasMeaning hx
    rw [perform, deliver_of_event hw]
    exact exec_goes_on i h
  | sameClock w v =>
    obtain ⟨⟨i, hw⟩, j, hv⟩ := decodePort_of_sameClock_hasMeaning hx
    rw [perform, deliverBoth_of_events hw hv]
    exact execAll_goes_on _ h
  | reset => exact ⟨_, rfl⟩
  | tick => exact ⟨_, rfl⟩
  | lineTransition level => exact lineTransition_goes_on level h
  | powerOn => exact ⟨_, rfl⟩

theorem execAll_inputs {is : List Instr} {s t : State} (h : execAll is s = .next t) : t.inputs = s.inputs :=
  execAll_preserves (P := fun u => u.inputs = s.inputs) (fun hu hs => (exec_inputs hu).trans hs) h rfl

@[simp] theorem tick_inputs (s : State) : (tick s).inputs = s.inputs := by
  cases ha : s.armed with
  | false => rw [tick_of_unarmed ha]
  | true => rw [tick_of_armed ha, setDurCount_inputs]

theorem lineTransition_inputs {level : Bool} {s t : State} (h : lineTransition level s = .next t) :
    t.inputs = s.inputs := by
  rcases lineTransition_cases h with ⟨-, rfl⟩ | ⟨-, -, rfl⟩
  · rfl
  · rw [advance_inputs, setDurCount_inputs]

/-- A step takes the input at the head of the queue and no other. -/
theorem step_inputs {s t : State} (h : step s = .next t) : t.inputs = s.inputs.tail := by
  rcases step_cases h with ⟨hs, rfl⟩ | ⟨rest, w, i, hs, -, hi⟩ | ⟨rest, w, v, i, j, hs, -, -, hij⟩ | ⟨rest, hs, rfl⟩
    | ⟨rest, hs, rfl⟩ | ⟨rest, level, hs, hl⟩ | ⟨rest, hs, rfl⟩
  · simp [hs]
  · simp [hs, exec_inputs hi]
  · simp [hs, execAll_inputs hij]
  · simp [hs]
  · simp [hs]
  · simp [hs, lineTransition_inputs hl]
  · simp [hs]

/-- A step leaves inputs with a meaning before the block, if there were only such before it. -/
theorem step_keeps_inputsHaveMeaning {s t : State} (h : step s = .next t) (hs : s.InputsHaveMeaning) :
    t.InputsHaveMeaning := by
  intro x hx
  rw [step_inputs h] at hx
  rw [noStepWritesTheBuild s t h]
  exact hs x (List.mem_of_mem_tail hx)

/-- A coherent block with inputs that have a meaning takes a step. -/
theorem step_goes_on {s : State} (hinv : s.Inv) (hin : s.InputsHaveMeaning) : ∃ t, step s = .next t := by
  cases hs : s.inputs with
  | nil => exact ⟨s, step_nil hs⟩
  | cons x rest =>
    rw [step_cons hs]
    exact perform_goes_on (inv_withInputs rest hinv) (hin x (by simp [hs]))

/-- Settles O42, by induction on the number of steps: each step goes on and keeps both invariants. -/
theorem meaningfulInputsNeverStopTheBlock : Obligations.MeaningfulInputsNeverStopTheBlock := by
  intro s n hinv hin
  induction n generalizing s with
  | zero => exact ⟨s, rfl, hinv, hin⟩
  | succ n ih =>
    obtain ⟨u, hu⟩ := step_goes_on hinv hin
    rw [run_succ_of_next n hu]
    exact ih u (everyStepKeepsTheRegistersCoherent s u hinv hu) (step_keeps_inputsHaveMeaning hu hin)

end Sys2Proof.Machine

/-! PROOFS. Two events of one clock, and the events of the consumer beside a completion (spec/60_exceptions.md
rules R106 and R107, spec/70_reset_and_hazards.md rule R125). -/

namespace Sys2Proof.Machine

/-- Two words of one clock at the head of the queue are performed in the order of R106. -/
theorem step_of_sameClock_head {s : State} {w v : Nat} {rest : List Input} {i j : Instr}
    (hs : s.inputs = .sameClock w v :: rest) (hw : decodePort s.build.durW w = .event i)
    (hv : decodePort s.build.durW v = .event j) : step s = execAll (serialize i j) (withInputs rest s) := by
  rw [step_cons hs]
  exact deliverBoth_of_events (s := withInputs rest s) hw hv

/-- A list of one event is that event. -/
theorem execAll_singleton (i : Instr) (s : State) : execAll [i] s = exec i s := by
  cases h : exec i s with
  | next t => rw [execAll_cons_of_next h, execAll_nil]
  | fault r => cases r
  | refused r => simp [execAll, h]

/-- INIT wins whichever of the two words it is (R106 item 7). -/
theorem serialize_init_left (i : Instr) : serialize .init i = [.init] := rfl

theorem serialize_init_right (i : Instr) : serialize i .init = [.init] := by cases i <;> rfl

/-- Settles O33: in either order INIT is the only event performed. -/
theorem initWinsTheClock : Obligations.InitWinsTheClock := by
  intro s w v rest i hs hw hv
  rw [← execAll_singleton]
  rcases hs with hs | hs
  · rw [step_of_sameClock_head hs hw hv, serialize_init_left]
    rfl
  · rw [step_of_sameClock_head hs hv hw, serialize_init_right]
    rfl

/-- A space whose duration is in a bit window stands for a bit (R70). -/
theorem isSome_spaceBit_iff (b : Build) (d : Nat) :
    (spaceBit b d).isSome = true ↔ accepts b .bitSpaceZero d = true ∨ accepts b .bitSpaceOne d = true := by
  rw [Option.isSome_iff_ne_none, ne_eq, spaceBit_eq_none, not_and_or, Bool.not_eq_false, Bool.not_eq_false]

/-- The falling edge that stores the 32nd bit publishes the frame and returns to AHM (R73). -/
theorem exec_fall_completes {s : State} {d : Nat} {b : Bool} (ha : s.armed = true)
    (hp : s.decoderState = .awaitingBitSpace) (hlast : s.bitCounter.toNat = 31) (hb : spaceBit s.build d = some b) :
    exec (.fall d) s = .next (enter .awaitingHeaderMark (publish (storeBit b s))) := by
  have hlt : s.bitCounter.toNat < 32 := by omega
  rw [exec_fall_of_coherent d ha (coherent_of_bitCounter_lt hlt), advance_fall_of_spaceBit d hp hb,
    finishBit_storeBit b s hlt, if_pos hlast]

/-- Settles O34: in either order the CLEAR is performed first, and the completion after it publishes. -/
theorem completionWinsOverClear : Obligations.CompletionWinsOverClear := by
  intro s w v rest d hs hw hv ha hp hlast hd
  obtain ⟨b, hb⟩ := Option.isSome_iff_exists.1 ((isSome_spaceBit_iff s.build d).2 hd)
  have hstep : step s = execAll [.clear, .fall d] (withInputs rest s) := by
    rcases hs with hs | hs
    · exact step_of_sameClock_head hs hw hv
    · exact step_of_sameClock_head hs hv hw
  rw [hstep, execAll_cons_of_next (exec_clear _), execAll_singleton]
  exact ⟨_, exec_fall_completes (s := clearReady (withInputs rest s)) ha hp hlast hb, rfl, rfl,
    getLsbD_commandField _⟩

/-- Settles O28: the first READ leaves the ports and Armed as they were, and the first CLEAR leaves nothing to clear. -/
theorem readAndClearAreIdempotent : Obligations.ReadAndClearAreIdempotent := by
  constructor
  · intro s t u ha ht hu
    rw [exec_read_of_armed ha] at ht
    cases ht
    rw [exec_read_of_armed (s := emit s.port s) ha] at hu
    cases hu
    exact ⟨List.append_assoc s.outputs [s.port] [s.port], rfl, rfl⟩
  · intro s t ht
    cases ht
    rw [exec_clear, clearReady_of_not_readyFlag (clearReady_readyFlag s)]

/-- The consumer may issue CLEAR and READ (R84). -/
theorem eq_clear_or_read_of_consumer {i : Instr} (h : Agent.consumer.mayIssue i = true) : i = .clear ∨ i = .read := by
  cases i with
  | fall d => cases h
  | rise d => cases h
  | init => cases h
  | clear => exact .inl rfl
  | read => exact .inr rfl

/-- Settles O29: CLEAR writes ReadyFlag alone, to 0, and READ writes no register, armed or not. -/
theorem consumerEventsLeaveTheDecoderUnchanged : Obligations.ConsumerEventsLeaveTheDecoderUnchanged := by
  intro s i hi
  rcases eq_clear_or_read_of_consumer hi with rfl | rfl
  · exact ⟨_, exec_clear s, rfl, rfl, rfl, nofun⟩
  · cases ha : s.armed with
    | true => exact ⟨_, exec_read_of_armed ha, rfl, rfl, rfl, id⟩
    | false => exact ⟨_, exec_read_of_unarmed ha, rfl, rfl, rfl, id⟩

/-- A run over well-formed events presented performs them in order (R34, R42). -/
theorem run_withEvents_of_wellFormed {es : List Instr} {s : State}
    (h : ∀ i ∈ es, i.wellFormedAt s.build.durW = true) : run es.length (s.withEvents es) = execAll es s :=
  run_withEvents fun i hi => decodeOfEncodeIsTheEvent _ i (h i hi)

/-- Settles O49: READ emits the pair before the completion, and the CLEAR after it clears the flag it raised. -/
theorem frameBetweenReadAndClearIsLost : Obligations.FrameBetweenReadAndClearIsLost := by
  intro s d ha hp hlast hsome hd
  obtain ⟨b, hb⟩ := Option.isSome_iff_exists.1 hsome
  have hwf : ∀ i ∈ [Instr.read, .fall d, .clear], i.wellFormedAt s.build.durW = true := by
    simp [Instr.wellFormedAt, hd]
  have hlt : s.bitCounter.toNat < 32 := hlast.trans_lt (by decide)
  have hrun := run_withEvents_of_wellFormed hwf
  rw [execAll_cons_of_next (exec_read_of_armed ha),
    execAll_cons_of_next (exec_fall_completes (s := emit s.port s) ha hp hlast hb), execAll_singleton] at hrun
  exact ⟨_, hrun, rfl, rfl, rfl, (bitCounter_succ_eq_32 _ hlt).2 hlast, rfl⟩

end Sys2Proof.Machine

/-! PROOFS. What the decoder holds does not depend on ReadyFlag, the outputs or the draws, so it does not depend on the
consumer (spec/60_exceptions.md rule R107). -/

namespace Sys2Proof.Machine

/-- What the consumer can reach, forgotten: states that agree here have the same decoder, build and queue. -/
def forgetConsumer (s : State) : State := { s with readyFlag := false, outputs := [], draws := 0 }

@[simp] theorem forgetConsumer_decoderState (s : State) : (forgetConsumer s).decoderState = s.decoderState := rfl
@[simp] theorem forgetConsumer_bitCounter (s : State) : (forgetConsumer s).bitCounter = s.bitCounter := rfl
@[simp] theorem forgetConsumer_armed (s : State) : (forgetConsumer s).armed = s.armed := rfl
@[simp] theorem forgetConsumer_build (s : State) : (forgetConsumer s).build = s.build := rfl
@[simp] theorem coherent_forgetConsumer (s : State) : (forgetConsumer s).coherent = s.coherent := rfl

theorem forgetConsumer_eq_iff (s t : State) :
    forgetConsumer s = forgetConsumer t ↔ s.decoderView = t.decoderView ∧ s.inputs = t.inputs ∧ s.build = t.build := by
  cases s
  cases t
  simp only [forgetConsumer, State.decoderView, State.mk.injEq, DecoderView.mk.injEq]
  tauto

/-- An event of the consumer changes only what is forgotten (R84). -/
theorem forgetConsumer_of_exec_consumer {i : Instr} {s t : State} (hi : Agent.consumer.mayIssue i = true)
    (h : exec i s = .next t) : forgetConsumer t = forgetConsumer s := by
  obtain ⟨u, hu, hview, hbuild, hinputs, -⟩ := consumerEventsLeaveTheDecoderUnchanged s i hi
  obtain rfl : u = t := by rw [hu] at h; cases h; rfl
  exact (forgetConsumer_eq_iff u s).2 ⟨hview, hinputs, hbuild⟩

theorem forgetConsumer_finishBit (s : State) :
    forgetConsumer (finishBit (forgetConsumer s)) = forgetConsumer (finishBit s) := by
  unfold finishBit
  rw [forgetConsumer_bitCounter]
  split <;> rfl

/-- The edge step reads nothing that is forgotten, and its cases are those of the whole state. -/
theorem forgetConsumer_advance (level : Bool) (d : Nat) (s : State) :
    forgetConsumer (advance level d (forgetConsumer s)) = forgetConsumer (advance level d s) := by
  unfold advance
  rw [forgetConsumer_decoderState]
  cases s.decoderState with
  | awaitingHeaderMark =>
    simp only [edgeAwaitingHeaderMark, forgetConsumer_build]
    cases level && accepts s.build .headerMark d <;> rfl
  | awaitingHeaderSpace =>
    simp only [edgeAwaitingHeaderSpace, forgetConsumer_build]
    cases !level && accepts s.build .headerSpace d <;> rfl
  | awaitingBitMark =>
    simp only [edgeAwaitingBitMark, forgetConsumer_build]
    cases level && accepts s.build .bitMark d <;> rfl
  | awaitingBitSpace =>
    simp only [edgeAwaitingBitSpace, forgetConsumer_build]
    cases level with
    | true => rfl
    | false =>
      cases spaceBit s.build d with
      | none => rfl
      | some b => exact forgetConsumer_finishBit (storeBit b s)

/-- States that agree on the decoder go on together on an event that is not the consumer's, and agree after it. -/
theorem exec_agrees {i : Instr} {s s' t : State} (hi : Agent.consumer.mayIssue i = false)
    (hs : forgetConsumer s' = forgetConsumer s) (h : exec i s = .next t) :
    ∃ t', exec i s' = .next t' ∧ forgetConsumer t' = forgetConsumer t := by
  have harmed : s'.armed = s.armed := by
    rw [← forgetConsumer_armed, hs, forgetConsumer_armed]
  have hcoherent : s'.coherent = s.coherent := by
    rw [← coherent_forgetConsumer, hs, coherent_forgetConsumer]
  have agrees (level : Bool) (d : Nat) (h : edge level d s = .next t) :
      ∃ t', edge level d s' = .next t' ∧ forgetConsumer t' = forgetConsumer t := by
    rcases (edge_eq_next level d s t).1 h with ⟨ha, rfl⟩ | ⟨ha, hc, rfl⟩
    · exact ⟨s', edge_of_unarmed level d (harmed.trans ha), hs⟩
    · refine ⟨_, edge_of_coherent level d (harmed.trans ha) (hcoherent.trans hc), ?_⟩
      rw [← forgetConsumer_advance, hs, forgetConsumer_advance]
  cases i with
  | fall d => exact agrees false d h
  | rise d => exact agrees true d h
  | init =>
    cases h
    exact ⟨_, exec_init s', congrArg initDecoder hs⟩
  | clear => cases hi
  | read => cases hi

/-- The events without the consumer's go on wherever all of them do, to a state that agrees on the decoder. -/
theorem execAll_without_consumer {es : List Instr} {s s' t : State} (hs : forgetConsumer s' = forgetConsumer s)
    (h : execAll es s = .next t) :
    ∃ u, execAll (es.filter fun i => !Agent.consumer.mayIssue i) s' = .next u
      ∧ forgetConsumer u = forgetConsumer t := by
  induction es generalizing s s' with
  | nil => cases h; exact ⟨s', rfl, hs⟩
  | cons i es ih =>
    obtain ⟨v, hv, ht⟩ := execAll_cons_eq_next h
    cases hi : Agent.consumer.mayIssue i with
    | true =>
      rw [List.filter_cons_of_neg (by simp [hi])]
      exact ih (hs.trans (forgetConsumer_of_exec_consumer hi hv).symm) ht
    | false =>
      obtain ⟨v', hv', hagree⟩ := exec_agrees hi hs hv
      rw [List.filter_cons_of_pos (by simp [hi]), execAll_cons_of_next hv']
      exact ih hagree ht

/-- Settles O48: both runs perform their events in order, and the decoder does not see which the consumer's are. -/
theorem consumerCannotDisturbTheDecoder : Obligations.ConsumerCannotDisturbTheDecoder := by
  intro s t es hwf h
  rw [run_withEvents_of_wellFormed hwf] at h
  rw [run_withEvents_of_wellFormed fun i hi => hwf i (List.mem_of_mem_filter hi)]
  obtain ⟨u, hu, hagree⟩ := execAll_without_consumer rfl h
  exact ⟨u, hu, (forgetConsumer_eq_iff u t).1 hagree⟩

end Sys2Proof.Machine

/-! PROOFS. Whole frames: the header, each bit after it, and what an accepted frame leaves (spec/41_edge_events.md
sections 3 to 5). -/

namespace Sys2Proof.Machine

/-- `t` is `s` after a header and the spaces of `bits`, at most 32 of them: it holds their bits in arrival order, and
awaits the next mark or has published the frame. -/
structure AfterBits (bits : List (Nat × Nat)) (s t : State) : Prop where
  stored : ∀ k (h : k < bits.length), spaceBit s.build bits[k].2 = some (t.rawFrame.getLsbD k)
  counted : t.bitCounter.toNat = bits.length
  unfinished : bits.length < 32 → t.decoderState = .awaitingBitMark
  finished : bits.length = 32 → t.decoderState = .awaitingHeaderMark ∧ t.readyFlag = true
    ∧ ∀ i, i < 8 → t.decodedCommand.getLsbD i = t.rawFrame.getLsbD (16 + i)
  unchanged : t.armed = s.armed ∧ t.durCount = s.durCount ∧ t.build = s.build ∧ t.inputs = s.inputs
    ∧ t.outputs = s.outputs ∧ t.draws = s.draws

theorem publishesFrame_of_afterBits {bits : List (Nat × Nat)} {s t : State} (h : AfterBits bits s t)
    (hlen : bits.length = 32) : PublishesFrame bits s t := by
  obtain ⟨hstart, hready, hcommand⟩ := h.finished hlen
  have hfull : t.bitCounter = 32#6 := BitVec.eq_of_toNat_eq (h.counted.trans hlen)
  exact ⟨h.stored, hfull, hstart, hready, hcommand, h.unchanged⟩

/-- An accepted header leaves the block at the first bit, with the frame and the counter cleared (R64, R66). -/
theorem execAll_header {s : State} {hm hs : Nat} (ha : s.armed = true) (hc : s.coherent = true)
    (hp : s.decoderState = .awaitingHeaderMark) (hmark : accepts s.build .headerMark hm = true)
    (hspace : accepts s.build .headerSpace hs = true) :
    ∃ t, execAll [.rise hm, .fall hs] s = .next t ∧ AfterBits [] s t := by
  have hrise : exec (.rise hm) s = .next (enter .awaitingHeaderSpace (clearFrame s)) := by
    rw [exec_rise_of_coherent hm ha hc, advance_rise_of_headerMark hm hp hmark]
  have hfall : exec (.fall hs) (enter .awaitingHeaderSpace (clearFrame s)) =
      .next (enter .awaitingBitMark (enter .awaitingHeaderSpace (clearFrame s))) := by
    rw [exec_fall_of_coherent hs (by exact ha) rfl, advance_fall_awaitingHeaderSpace hs rfl]
    exact congrArg (fun p => Host.Outcome.next (enter p _)) (if_pos hspace)
  rw [execAll_cons_of_next hrise, execAll_singleton, hfall]
  exact ⟨_, rfl, nofun, rfl, fun _ => rfl, nofun, rfl, rfl, rfl, rfl, rfl, rfl⟩

/-- One more bit of an unfinished frame: its mark enters ABS and its space is stored at the counter (R68, R72, R73). -/
theorem execAll_bit {s t : State} {bits : List (Nat × Nat)} {p : Nat × Nat} (ha : s.armed = true)
    (h : AfterBits bits s t) (hlen : bits.length < 32) (hmark : accepts s.build .bitMark p.1 = true)
    (hspace : (spaceBit s.build p.2).isSome = true) :
    ∃ u, execAll [.rise p.1, .fall p.2] t = .next u ∧ AfterBits (bits ++ [p]) s u := by
  obtain ⟨b, hb⟩ := Option.isSome_iff_exists.1 hspace
  obtain ⟨harmed, hdur, hbuild, hinputs, houtputs, hdraws⟩ := h.unchanged
  have hcount := h.counted
  have hlt : t.bitCounter.toNat < 32 := hcount.trans_lt hlen
  have hrise : exec (.rise p.1) t = .next (enter .awaitingBitSpace t) := by
    rw [exec_rise_of_coherent p.1 (harmed.trans ha) (coherent_of_bitCounter_lt hlt),
      advance_rise_awaitingBitMark p.1 (h.unfinished hlen), hbuild, if_pos hmark]
  obtain ⟨u, hfall, hbits, hcounted, hdone, hmore, hframe⟩ :=
    exec_fall_storesBit (s := enter .awaitingBitSpace t) (d := p.2) (b := b) (harmed.trans ha) rfl hlt
      (by rwa [enter_build, hbuild])
  simp only [enter_bitCounter, enter_rawFrame, hcount] at hbits hcounted hdone hmore
  obtain ⟨uarmed, udur, ubuild, uinputs, uoutputs, udraws⟩ := hframe
  refine ⟨u, by rw [execAll_cons_of_next hrise, execAll_singleton, hfall], ?_, ?_, fun hlen' => ?_, fun hlen' => ?_,
    uarmed.trans harmed, udur.trans hdur, ubuild.trans hbuild, uinputs.trans hinputs, uoutputs.trans houtputs,
    udraws.trans hdraws⟩
  · intro k hk
    rw [List.length_append, List.length_singleton] at hk
    rw [hbits k (by omega)]
    rcases Nat.lt_succ_iff_lt_or_eq.1 hk with hold | rfl
    · rw [List.getElem_append_left hold, if_neg hold.ne]
      exact h.stored k hold
    · rw [List.getElem_concat_length rfl, if_pos rfl, hb]
  · rw [hcounted, List.length_append, List.length_singleton]
  · rw [List.length_append, List.length_singleton] at hlen'
    exact (hmore (by omega)).1
  · rw [List.length_append, List.length_singleton] at hlen'
    exact hdone (by omega)

/-- The bits that follow are stored one after the other, up to the 32nd. -/
theorem execAll_bits {s t : State} {bits more : List (Nat × Nat)} (ha : s.armed = true) (h : AfterBits bits s t)
    (hlen : (bits ++ more).length ≤ 32)
    (hbits : ∀ p ∈ more, accepts s.build .bitMark p.1 = true ∧ (spaceBit s.build p.2).isSome = true) :
    ∃ u, execAll (more.flatMap fun p => [.rise p.1, .fall p.2]) t = .next u ∧ AfterBits (bits ++ more) s u := by
  induction more generalizing bits t with
  | nil => exact ⟨t, rfl, by rwa [List.append_nil]⟩
  | cons p more ih =>
    obtain ⟨hp, hmore⟩ := List.forall_mem_cons.1 hbits
    rw [List.append_cons] at hlen ⊢
    have hroom : bits.length < 32 := by
      simp only [List.length_append, List.length_singleton] at hlen
      omega
    obtain ⟨v, hv, hafter⟩ := execAll_bit ha h hroom hp.1 hp.2
    obtain ⟨u, hu, hlast⟩ := ih hafter hlen hmore
    exact ⟨u, by rw [List.flatMap_cons, execAll_append hv, hu], hlast⟩

/-- The events of an accepted frame publish it (R31, R32, R73). -/
theorem execAll_frameEvents {s : State} {hm hs : Nat} {bits : List (Nat × Nat)} (ha : s.armed = true)
    (hc : s.coherent = true) (hp : s.decoderState = .awaitingHeaderMark) (h : FrameAccepted s.build hm hs bits) :
    ∃ t, execAll (frameEvents hm hs bits) s = .next t ∧ PublishesFrame bits s t := by
  obtain ⟨hmark, hspace, hlen, hbits⟩ := h
  obtain ⟨u, hu, hheader⟩ := execAll_header ha hc hp hmark hspace
  obtain ⟨t, ht, hafter⟩ := execAll_bits ha hheader hlen.le hbits
  exact ⟨t, by rw [frameEvents, execAll_append hu, ht], publishesFrame_of_afterBits hafter hlen⟩

theorem length_of_frameAccepted {b : Build} {hm hs : Nat} {bits : List (Nat × Nat)} (h : FrameAccepted b hm hs bits) :
    bits.length = 32 := by
  obtain ⟨-, -, hlen, -⟩ := h
  exact hlen

theorem length_frameEvents (hm hs : Nat) {bits : List (Nat × Nat)} (h : bits.length = 32) :
    (frameEvents hm hs bits).length = 66 := by
  simp [frameEvents, List.length_flatMap, h]

/-- Settles O43: the 66 steps perform the events of the frame. -/
theorem acceptedFrameIsPublished : Obligations.AcceptedFrameIsPublished := by
  intro s hm hs bits ha hc hp hframe hwf
  rw [← length_frameEvents hm hs (length_of_frameAccepted hframe), run_withEvents_of_wellFormed hwf]
  exact execAll_frameEvents ha hc hp hframe

/-- Settles O44: the first frame leaves an armed, coherent block in AHM with everything else unchanged, and from there
the second one is published in its place. -/
theorem unreadFrameIsOverwritten : Obligations.UnreadFrameIsOverwritten := by
  intro s hm hs hm' hs' bits bits' ha hc hp hframe hframe' hwf
  have hlen : (frameEvents hm hs bits ++ frameEvents hm' hs' bits').length = 132 := by
    rw [List.length_append, length_frameEvents hm hs (length_of_frameAccepted hframe),
      length_frameEvents hm' hs' (length_of_frameAccepted hframe')]
  rw [← hlen, run_withEvents_of_wellFormed hwf]
  obtain ⟨u, hu, -, hfull, hstart, -, -, harmed, hdur, hbuild, hinputs, houtputs, hdraws⟩ :=
    execAll_frameEvents ha hc hp hframe
  have huc : u.coherent = true := (coherent_iff u).2 ⟨by simp [hfull], fun hne => absurd hstart hne⟩
  obtain ⟨t, ht, hpub⟩ := execAll_frameEvents (harmed.trans ha) huc hstart (by rwa [hbuild])
  rw [execAll_append hu]
  refine ⟨t, ht, ?_⟩
  simpa only [PublishesFrame, harmed, hdur, hbuild, hinputs, houtputs, hdraws] using hpub

/-- The durations of `FRAME v`: each bit has a nominal mark and the nominal space of its value (R47). -/
def nominalBits (b : Build) (v : Frame) : List (Nat × Nat) :=
  (List.range 32).map fun k => (b.nomBM, if v.getLsbD k then b.nomB1 else b.nomB0)

theorem length_nominalBits (b : Build) (v : Frame) : (nominalBits b v).length = 32 := by simp [nominalBits]

/-- `FRAME v` is the frame of its nominal durations (R47). -/
theorem expand_frame (b : Build) (v : Frame) :
    PseudoEvent.expand b (.frame v) = frameEvents b.nomHM b.nomHS (nominalBits b v) := by
  rw [PseudoEvent.expand, frameEvents, nominalBits, List.flatMap_map]
  rfl

/-- A nominal value of 3 or more lies in its own window (R50). -/
theorem classify_self {n : Nat} (h : 3 ≤ n) : classify n n = true := by
  rw [classify_eq_true]
  omega

/-- A nominal space reads as the bit it stands for, where the BitSpaceZero window leaves the one's nominal out (R70). -/
theorem spaceBit_nominal {b : Build} (v : Bool) (h0 : 3 ≤ b.nomB0) (h1 : 3 ≤ b.nomB1)
    (hout : classify b.nomB1 b.nomB0 = false) : spaceBit b (if v then b.nomB1 else b.nomB0) = some v := by
  rw [spaceBit_eq_some]
  cases v with
  | false => exact .inl ⟨rfl, classify_self h0⟩
  | true => exact .inr ⟨rfl, hout, classify_self h1⟩

/-- A space of `FRAME v` reads as the bit of `v` at its position. -/
theorem spaceBit_nominalBits {b : Build} (v : Frame) (h0 : 3 ≤ b.nomB0) (h1 : 3 ≤ b.nomB1)
    (hout : classify b.nomB1 b.nomB0 = false) (k : Nat) (hk : k < (nominalBits b v).length) :
    spaceBit b (nominalBits b v)[k].2 = some (v.getLsbD k) := by
  simp only [nominalBits, List.getElem_map, List.getElem_range]
  exact spaceBit_nominal _ h0 h1 hout

theorem frameAccepted_nominal {b : Build} (v : Frame) (hHM : 3 ≤ b.nomHM) (hHS : 3 ≤ b.nomHS) (hBM : 3 ≤ b.nomBM)
    (h0 : 3 ≤ b.nomB0) (h1 : 3 ≤ b.nomB1) (hout : classify b.nomB1 b.nomB0 = false) :
    FrameAccepted b b.nomHM b.nomHS (nominalBits b v) := by
  refine ⟨classify_self hHM, classify_self hHS, length_nominalBits b v, fun p hp => ?_⟩
  obtain ⟨k, -, rfl⟩ := List.mem_map.1 hp
  refine ⟨classify_self hBM, ?_⟩
  rw [spaceBit_nominal _ h0 h1 hout, Option.isSome_some]

/-- Every event of `FRAME v` fits a well-formed build's duration (R5). -/
theorem wellFormedAt_nominal {b : Build} (v : Frame) (h : b.wellFormed = true) :
    ∀ i ∈ frameEvents b.nomHM b.nomHS (nominalBits b v), i.wellFormedAt b.durW = true := by
  simp only [Build.wellFormed, Bool.and_eq_true, decide_eq_true_eq] at h
  obtain ⟨⟨⟨⟨hHM, hHS⟩, hBM⟩, h0⟩, h1⟩ := h
  intro i hi
  simp only [frameEvents, nominalBits, List.mem_append, List.mem_cons, List.not_mem_nil, or_false, List.mem_flatMap,
    List.mem_map] at hi
  apply wellFormedAt_of_duration_lt
  rcases hi with (rfl | rfl) | ⟨-, ⟨k, -, rfl⟩, rfl | rfl⟩
  · exact hHM
  · exact hHS
  · exact hBM
  · show (if v.getLsbD k then b.nomB1 else b.nomB0) < _
    split <;> assumption

/-- Settles O45: `FRAME v` is an accepted frame, and bit by bit its spaces read as `v`. -/
theorem nominalFramePublishesItsCommand : Obligations.NominalFramePublishesItsCommand := by
  intro s v ha hc hp hbuild hHM hHS hBM h0 h1 hout
  obtain ⟨t, ht, hstored, hfull, hstart, hready, hcommand, hframe⟩ := acceptedFrameIsPublished s _ _ _ ha hc hp
    (frameAccepted_nominal v hHM hHS hBM h0 h1 hout) (wellFormedAt_nominal v hbuild)
  have hraw : t.rawFrame = v := by
    apply BitVec.eq_of_getLsbD_eq
    intro k hk
    have hlen : k < (nominalBits s.build v).length := by rwa [length_nominalBits]
    exact Option.some.inj ((hstored k hlen).symm.trans (spaceBit_nominalBits v h0 h1 hout k hlen))
  have hcmd : t.decodedCommand = v.extractLsb' 16 8 := by
    apply BitVec.eq_of_getLsbD_eq
    intro i hi
    rw [hcommand i hi, hraw]
    exact (getLsbD_commandField v i hi).symm
  obtain ⟨harmed, hdur, hb, hinputs, houtputs, hdraws⟩ := hframe
  rw [expand_frame, ht]
  cases t
  simp only at hraw hcmd hfull hstart hready harmed hdur hb hinputs houtputs hdraws
  rw [hraw, hcmd, hfull, hstart, hready, harmed, hdur, hb, hinputs, houtputs, hdraws]

end Sys2Proof.Machine

/-! PROOFS. Runs that complete no frame: edges without a HeaderMark, and fewer than 66 edges (spec/41_edge_events.md
section 6, spec/70_reset_and_hazards.md rule R123). -/

namespace Sys2Proof.Machine

/-- In AHM only a HeaderMark changes anything (R64, R65). -/
theorem exec_edge_without_headerMark {s : State} {i : Instr} (ha : s.armed = true) (hc : s.coherent = true)
    (hp : s.decoderState = .awaitingHeaderMark) (hi : i.isEdge = true)
    (hd : accepts s.build .headerMark i.duration = false) : exec i s = .next s := by
  cases i with
  | fall d => rw [exec_fall_of_coherent d ha hc, advance_fall_awaitingHeaderMark d hp]
  | rise d => rw [exec_rise_of_coherent d ha hc, advance_rise_of_not_headerMark d hp hd]
  | init => cases hi
  | clear => cases hi
  | read => cases hi

/-- Events none of which changes the state leave it as it is. -/
theorem execAll_eq_self {es : List Instr} {s : State} (h : ∀ i ∈ es, exec i s = .next s) : execAll es s = .next s := by
  induction es with
  | nil => rfl
  | cons i es ih =>
    obtain ⟨hi, hes⟩ := List.forall_mem_cons.1 h
    rw [execAll_cons_of_next hi, ih hes]

/-- Settles O46: outside 6001 to 11999 ticks the default HeaderMark window rejects, so no edge does anything. -/
theorem edgesAfterAnAbandonedFrameChangeNothing : Obligations.EdgesAfterAnAbandonedFrameChangeNothing := by
  intro s es ha hc hp hdef hes
  have hwf : ∀ i ∈ es, i.wellFormedAt s.build.durW = true := fun i hi => by
    obtain ⟨-, hwf, -⟩ := hes i hi
    exact hwf
  rw [run_withEvents_of_wellFormed hwf]
  refine execAll_eq_self fun i hi => ?_
  obtain ⟨hedge, -, hout⟩ := hes i hi
  obtain ⟨hmark, -⟩ := defaultWindowsAcceptTheTable s.build i.duration hdef
  exact exec_edge_without_headerMark ha hc hp hedge (by rwa [← Bool.not_eq_true, hmark])

/-- How many edges of a frame the block has behind it: the header's two and two for each bit. -/
def edgesTaken (s : State) : Nat :=
  match s.decoderState with
  | .awaitingHeaderMark => 0
  | .awaitingHeaderSpace => 1 + 2 * s.bitCounter.toNat
  | .awaitingBitMark => 2 + 2 * s.bitCounter.toNat
  | .awaitingBitSpace => 3 + 2 * s.bitCounter.toNat

theorem edgesTaken_awaitingHeaderMark {s : State} (h : s.decoderState = .awaitingHeaderMark) : edgesTaken s = 0 := by
  rw [edgesTaken, h]

theorem edgesTaken_awaitingHeaderSpace {s : State} (h : s.decoderState = .awaitingHeaderSpace) :
    edgesTaken s = 1 + 2 * s.bitCounter.toNat := by rw [edgesTaken, h]

theorem edgesTaken_awaitingBitMark {s : State} (h : s.decoderState = .awaitingBitMark) :
    edgesTaken s = 2 + 2 * s.bitCounter.toNat := by rw [edgesTaken, h]

theorem edgesTaken_awaitingBitSpace {s : State} (h : s.decoderState = .awaitingBitSpace) :
    edgesTaken s = 3 + 2 * s.bitCounter.toNat := by rw [edgesTaken, h]

/-- An edge takes the block at most one edge further into a frame. -/
theorem edgesTaken_advance_le (level : Bool) (d : Nat) {s : State} (hc : s.coherent = true) :
    edgesTaken (advance level d s) ≤ edgesTaken s + 1 := by
  rcases advance_cases level d s with ⟨hp, -, -, ht⟩ | ⟨hp, -, -, ht⟩ | ⟨hp, -, -, ht⟩ | ⟨b, hp, -, -, ht⟩ | ht
  · rw [ht, edgesTaken_awaitingHeaderMark hp]
    exact le_rfl
  · rw [ht, edgesTaken_awaitingHeaderSpace hp, edgesTaken_awaitingBitMark rfl, enter_bitCounter]
    omega
  · rw [ht, edgesTaken_awaitingBitMark hp, edgesTaken_awaitingBitSpace rfl, enter_bitCounter]
    omega
  · obtain ⟨-, hcount, hdone, hmore, -⟩ := storesBit_finishBit b (bitCounter_lt_of_coherent hc (by simp [hp]))
    rw [ht]
    by_cases hlast : s.bitCounter.toNat = 31
    · rw [edgesTaken_awaitingHeaderMark (hdone hlast).1]
      exact Nat.zero_le _
    · rw [edgesTaken_awaitingBitSpace hp, edgesTaken_awaitingBitMark (hmore hlast).1, hcount]
      omega
  · rw [ht, edgesTaken_awaitingHeaderMark rfl]
    exact Nat.zero_le _

theorem exec_edgesTaken_le {i : Instr} {s t : State} (h : exec i s = .next t) : edgesTaken t ≤ edgesTaken s + 1 := by
  rcases exec_cases h with ⟨-, -, rfl⟩ | ⟨level, d, -, -, hc, rfl⟩ | ⟨-, rfl⟩ | ⟨-, rfl⟩ | ⟨-, -, rfl⟩ | ⟨-, -, rfl⟩
  · exact Nat.le_succ _
  · exact edgesTaken_advance_le level d hc
  · rw [edgesTaken_awaitingHeaderMark rfl]
    exact Nat.zero_le _
  · exact Nat.le_succ (edgesTaken s)
  · exact Nat.le_succ (edgesTaken s)
  · exact Nat.le_succ (edgesTaken s)

/-- An event raises ReadyFlag only with 65 edges of the frame behind the block (R73). -/
theorem exec_keeps_not_ready {i : Instr} {s t : State} (h : exec i s = .next t) (hs : s.readyFlag = false)
    (hfew : edgesTaken s < 65) : t.readyFlag = false := by
  by_contra hready
  obtain ⟨-, hp, hlast, -⟩ := onlyACompletionRaisesReadyFlag s t i h hs (by simpa using hready)
  rw [edgesTaken_awaitingBitSpace hp] at hfew
  omega

/-- With ReadyFlag at 0 and fewer than `n` edges of a frame behind it. -/
abbrev NotReadyWithin (n : Nat) (s : State) : Prop := s.readyFlag = false ∧ edgesTaken s < n

theorem exec_keeps_notReadyWithin {i : Instr} {s t : State} {n : Nat} (h : exec i s = .next t) (hn : n ≤ 65)
    (hs : NotReadyWithin n s) : NotReadyWithin (n + 1) t := by
  obtain ⟨hready, hfew⟩ := hs
  have hle := exec_edgesTaken_le h
  exact ⟨exec_keeps_not_ready h hready (by omega), by omega⟩

/-- One input that is neither power-on nor two words of one clock is one event at most (R110, R121). -/
theorem step_keeps_notReadyWithin {s t : State} {n : Nat} (h : step s = .next t) (hn : n ≤ 65)
    (hin : ∀ x ∈ s.inputs, x ≠ .powerOn ∧ ∀ w v, x ≠ .sameClock w v) (hs : NotReadyWithin n s) :
    NotReadyWithin (n + 1) t := by
  have hsame : NotReadyWithin (n + 1) s := ⟨hs.1, hs.2.trans (Nat.lt_succ_self n)⟩
  rcases step_cases h with ⟨-, rfl⟩ | ⟨rest, w, i, -, -, hi⟩ | ⟨rest, w, v, i, j, hx, -⟩ | ⟨rest, -, rfl⟩
    | ⟨rest, -, rfl⟩ | ⟨rest, level, -, hl⟩ | ⟨rest, hx, -⟩
  · exact hsame
  · exact exec_keeps_notReadyWithin hi hn hs
  · exact absurd rfl ((hin (.sameClock w v) (by simp [hx])).2 w v)
  · exact exec_keeps_notReadyWithin (exec_init (withInputs rest s)) hn hs
  · cases ha : s.armed with
    | false =>
      rw [tick_of_unarmed (s := withInputs rest s) ha]
      exact hsame
    | true =>
      rw [tick_of_armed (s := withInputs rest s) ha]
      exact hsame
  · cases ha : s.armed with
    | false =>
      rw [lineTransition_of_unarmed level (s := withInputs rest s) ha] at hl
      cases hl
      exact hsame
    | true =>
      rw [lineTransition_of_armed level (s := withInputs rest s) ha] at hl
      exact exec_keeps_notReadyWithin hl hn hs
  · exact absurd rfl (hin .powerOn (by simp [hx])).1

/-- Settles O47, by induction on the number of steps, with one edge more behind the block allowed for each. -/
theorem noFrameBeforeSixtySixEdges : Obligations.NoFrameBeforeSixtySixEdges := by
  intro s t n hn ha hp hready hin hrun
  have hstart : NotReadyWithin (66 - n) s := ⟨hready, by rw [edgesTaken_awaitingHeaderMark hp]; omega⟩
  clear ha hp hready
  induction n generalizing s with
  | zero => cases hrun; exact hstart.1
  | succ n ih =>
    obtain ⟨u, hu, ht⟩ := run_succ_eq_next hrun
    have hnext := step_keeps_notReadyWithin hu (by omega) hin hstart
    rw [show 66 - (n + 1) + 1 = 66 - n by omega] at hnext
    refine ih u (by omega) (fun x hx => hin x ?_) ht hnext
    rw [step_inputs hu] at hx
    exact List.mem_of_mem_tail hx

end Sys2Proof.Machine
